-- ==== Sys2Proof/Word.lean ====
section
/-! DEFINITION. The value types of the hardware (00_scope.md R8) and the widths of its three wire formats
(30_encoding.md R62). Arithmetic is BitVec's own: `+`, `*`, `<<<` keep the low bits, `>>>` is the logical
right shift (R9). -/

namespace Sys2Proof

/-- `u8` (R8). -/
abbrev Byte := BitVec 8

/-- `u32`, the width XLEN of R7. -/
abbrev Word := BitVec 32

/-- A command word CW, 35 bits (R63, CW_BITS of R7). -/
abbrev CmdWord := BitVec 35

/-- A data beat DB, 35 bits (R67, DB_BITS of R7). -/
abbrev Beat := BitVec 35

/-- A response word RW, 33 bits (R72, RW_BITS of R7). -/
abbrev RspWord := BitVec 33

end Sys2Proof
end

