-- ==== Sys2Proof/Syntax.lean ====
section
/-! DEFINITION. The command set of `murmur2a_engine` as decoded from a command word (30_encoding.md R66, R76). -/

namespace Sys2Proof

/-- What `decode` yields (R76). Fields a command ignores are not kept (R64, R65). `hasBeats` says that the
payload comes in data beats (`e = 0`); without it the payload is the empty sequence (R65). -/
inductive Instr where
  /-- INIT: begin a new hash with this seed (R110). -/
  | init (seed : Word)
  /-- ADD: absorb a payload (R112). -/
  | add (hasBeats : Bool)
  /-- FINALIZE: finish the hash and return it (R114). -/
  | finalize
  /-- HASH_ONCE: hash one payload on scratch registers (R132). -/
  | hashOnce (seed : Word) (hasBeats : Bool)
  deriving DecidableEq, Repr

end Sys2Proof
end

