-- ==== Sys2Proof/Messages.lean ====
section
/-! DEFINITION. The two abstract messages between host and engine: a command with its payload (30_encoding.md
R77, R79) and a response (00_scope.md R11). -/

namespace Sys2Proof

/-- A command transaction: the command and the payload its beats carry (R74, R79). -/
inductive Command where
  | init (seed : Word)
  | add (payload : List Byte)
  | finalize
  | hashOnce (seed : Word) (payload : List Byte)
  deriving DecidableEq, Repr

/-- The three abstract responses (R11). An answer without a hash carries no value at all (R72; U4, U5 of
93_implementation_defined.md), so no claim can use the zeros of its wire word. -/
inductive Response where
  /-- `Ok`: done, no value returned. -/
  | ok
  /-- `OkHash(h)`: done, the hash returned. -/
  | okHash (h : Word)
  /-- `Err(InvalidState)`: the one error (R150). -/
  | errInvalidState
  deriving DecidableEq, Repr

end Sys2Proof
end

