-- ==== Sys2Proof/Machine/State.lean ====
section
/-! DEFINITION. The state of one engine as plain data: the six architectural registers (10_state.md R20), the three
channels and the loop's own data (30_encoding.md R61, 42_engine.md R131), and the two input pins that are no word
(R60). Hidden state (R32) is dead between commands and is no part of it (U13, log entry 1). -/

namespace Sys2Proof.Machine

/-- The six architectural registers, 131 bits, `st` of 42_engine.md R136. -/
structure Regs where
  /-- HASH, the running hash (R21). -/
  hash : Word
  /-- TAIL, the pending tail accumulator (R22). -/
  tail : Word
  /-- COUNT, the number of valid bytes in TAIL (R23). -/
  count : BitVec 2
  /-- SIZE, the payload bytes since INIT modulo 2^32 (R24). -/
  size : Word
  /-- SEED, the seed of the last INIT; nothing reads it (R25). -/
  seed : Word
  /-- FIN, the lifecycle flag: false is Active, true is Finalized (R26). -/
  fin : Bool
  deriving DecidableEq, Repr

/-- The quadruple `(HASH, TAIL, COUNT, SIZE)` on which the phases of ADD act (R136): the hasher's own registers
for ADD, the scratch registers `S_HASH, S_TAIL, S_COUNT, S_SIZE` for HASH_ONCE (R132). -/
structure Quad where
  hash : Word
  tail : Word
  count : BitVec 2
  size : Word
  deriving DecidableEq, Repr

/-- One engine and what its host has put on its channels since the last reset. -/
structure State where
  /-- The architectural registers (R20). -/
  regs : Regs
  /-- The command words offered and not yet transferred, oldest first (R61). -/
  cmds : List CmdWord
  /-- The data beats offered and not yet transferred, `D[k], D[k+1], ...` (R61, R180). -/
  beats : List Beat
  /-- The index of the first data beat not yet taken (R131). -/
  k : Nat
  /-- The response offered and not yet transferred (R131, R178). -/
  rsp : Option Response
  /-- The responses transferred since the last reset, oldest first: the sequence S (R61, R134). -/
  sent : List Response
  /-- The host's pin `rsp_ready` (R60). -/
  rspReady : Bool
  /-- The host's pin `rst` (R60, R170). -/
  rst : Bool
  deriving DecidableEq, Repr

/-- Why a step stops. None is an error of the hardware: in each the engine waits for the host, nothing has
changed, and the same state goes on once the host has acted (Machine/HostOps.lean). -/
inductive Fault where
  /-- Raised by `step` when the command channel offers no word: the loop waits (R131, R162, R175). Safe: the model
  stops where the hardware waits. -/
  | awaitingCommand
  /-- Raised by ADD and HASH_ONCE with beats until a beat with `last = 1` has come: stuck (R177, U7). Safe. -/
  | awaitingPayload
  /-- Raised by `step` while a response is offered and the host is not ready to take it: stuck (R178, U8). Safe. -/
  | awaitingResponse
  deriving DecidableEq, Repr

/-- Why an instruction is refused. Every instruction of the table has its meaning, so nothing raises this. -/
inductive Refusal where
  /-- An instruction without a meaning yet; raised by no arm of `exec`. Safe. -/
  | notModelled (mnemonic : String)
  deriving DecidableEq, Repr

/-- The registers after reset (R34, R170). -/
def resetRegs : Regs :=
  { hash := 0#32, tail := 0#32, count := 0#2, size := 0#32, seed := 0#32, fin := true }

/-- The machine right after reset (R34, R170, R171): nothing offered, nothing transferred, `rst` released. That the
host is ready to take responses is the model's choice (log entry 4). -/
def State.reset : State :=
  { regs := resetRegs, cmds := [], beats := [], k := 0, rsp := none, sent := [], rspReady := true, rst := false }

end Sys2Proof.Machine
end

