-- ==== Sys2Proof/Machine/Flags.lean ====
section
/-! DEFINITION. FIN, the only flag of the hardware (10_state.md R26): its test and its writes. There is no other
flag and no flag is written as a side effect. -/

namespace Sys2Proof.Machine

/-- The test ADD and FINALIZE make first (R26, R151, R152). -/
def isFinalized (r : Regs) : Bool := r.fin

/-- `FIN <- 0`: Active, written by INIT (R26, R110). -/
def setActive (r : Regs) : Regs := { r with fin := false }

/-- `FIN <- 1`: Finalized, written by FINALIZE (R26, R114). -/
def setFinalized (r : Regs) : Regs := { r with fin := true }

end Sys2Proof.Machine
end

