-- ==== Sys2Proof/Config.lean ====
section
/-! DEFINITION. The constants of 00_scope.md R7. The spec leaves no parameter open, so nothing here is opaque. -/

namespace Sys2Proof.Config

/-- `M`, the multiplier of `mix` and of the finishing step (R7). -/
def M : Word := 0x5BD1E995#32

/-- `R`, the right-shift distance inside `mix` (R7). -/
def R : Nat := 24

/-- `S1`, the first right-shift distance of the finishing step (R7). -/
def S1 : Nat := 13

/-- `S2`, the second right-shift distance of the finishing step (R7). -/
def S2 : Nat := 15

/-- `SEED_DEFAULT`, the seed an INIT without operand stands for (R7, R78). -/
def seedDefault : Word := 0#32

end Sys2Proof.Config
end

