-- ==== Sys2Proof/Machine/Mixer.lean ====
section
/-! DEFINITION. `murmur2a_mixer`: the mixing primitive (40_mixer.md). Combinational and stateless (R92, R94); its
ports are the two arguments and the result (30_encoding.md R80). The constant stands first in a product so that Lean's
kernel, comparing terms, never unfolds the multiplication along it; the product is the same. -/

namespace Sys2Proof.Machine

/-- The scrambling of the chunk inside `mix`: `k1`, `k2`, `k3` of R90. -/
def mixChunk (k : Word) : Word :=
  let k1 := Config.M * k
  let k2 := k1 ^^^ (k1 >>> Config.R)
  Config.M * k2

/-- `mix(h, k)` (R90): fold the chunk `k` into the running hash `h`. -/
def mix (h k : Word) : Word :=
  (Config.M * h) ^^^ mixChunk k

end Sys2Proof.Machine
end

