-- ==== Sys2Proof/WellFormed.lean ====
section
/-! DEFINITION. What is well formed. 30_encoding.md R75: no command word, no beat and no decoded command is
malformed; the only ways to be wrong are a number that does not fit the 35-bit channel and a payload whose framing
is not finished (R69, R177). -/

namespace Sys2Proof

/-- Every decoded command is well formed (R75, R153: no field value is an error). -/
def Instr.wellFormed : Instr → Bool
  | .init _ => true
  | .add _ => true
  | .finalize => true
  | .hashOnce _ _ => true

/-- A number is a command word or a beat exactly when it fits 35 bits (R63, R67). -/
def isWord35 (n : Nat) : Bool := decide (n < 2 ^ 35)

/-- One whole payload on the data channel, given the `last` bits of its beats: at least one beat, and `last` on
the final one and on no other (R69). -/
def framed : List Bool → Bool
  | [] => false
  | [l] => l
  | l :: ls => !l && framed ls

end Sys2Proof
end

