-- ==== Sys2Proof/Decode.lean ====
section
/-! DEFINITION. The encodings of 30_encoding.md: command word (R63 to R66, R76), data beat and payload (R67 to
R71), response word (R72), and the encoders that invert them on canonical words (R79). -/

namespace Sys2Proof

/-! ### The command word -/

/-- `op = CW[34:33]` (R63). -/
def cwOp (w : CmdWord) : BitVec 2 := w.extractLsb' 33 2

/-- `e = CW[32]` (R63). -/
def cwE (w : CmdWord) : Bool := w.getLsbD 32

/-- `seed = CW[31:0]` (R63), verbatim (R64). -/
def cwSeed (w : CmdWord) : Word := w.extractLsb' 0 32

/-- Decode, total on 35-bit words (R76, R75). -/
def decode (w : CmdWord) : Instr :=
  if cwOp w = 0#2 then .init (cwSeed w)
  else if cwOp w = 1#2 then .add (!cwE w)
  else if cwOp w = 2#2 then .finalize
  else .hashOnce (cwSeed w) (!cwE w)

/-- Why a number is not decoded: the only reason there is (R75). -/
inductive DecodeError where
  /-- The number does not fit the 35-bit command channel. -/
  | widerThanCommandWord
  deriving DecidableEq, Repr

/-- Decode of any number, refusing by name one that is no command word. -/
def decodeNat (n : Nat) : Except DecodeError Instr :=
  if isWord35 n then .ok (decode (BitVec.ofNat 35 n)) else .error .widerThanCommandWord

/-- The host's question (its form is fixed): the instruction read from a table word. The command word is
transferred in one piece, so its bits are the table's bits 34 to 0; bits from `nbits` on are 0. -/
def decodeTableWord (nbits w : Nat) : Option Instr :=
  match decodeNat (w % 2 ^ nbits) with
  | .ok i => some i
  | .error _ => none

/-- The opcode of a command (R66). -/
def opcode : Instr → BitVec 2
  | .init _ => 0#2
  | .add _ => 1#2
  | .finalize => 2#2
  | .hashOnce _ _ => 3#2

/-- `CW = op * 2^33 + e * 2^32 + seed` (R63). -/
def cwMake (op : BitVec 2) (e : Bool) (seed : Word) : CmdWord :=
  (op ++ (BitVec.ofBool e ++ seed) : BitVec (2 + (1 + 32)))

/-- The canonical command word of a command: ignored fields 0 (R79). -/
def encode : Instr → CmdWord
  | .init seed => cwMake 0#2 false seed
  | .add hasBeats => cwMake 1#2 (!hasBeats) 0#32
  | .finalize => cwMake 2#2 false 0#32
  | .hashOnce seed hasBeats => cwMake 3#2 (!hasBeats) seed

/-- The mask of the opcode map (R66). -/
def opMask : CmdWord := 0x600000000#35

/-- The match values of the opcode map (R66). -/
def opMatch : Instr → CmdWord
  | .init _ => 0x000000000#35
  | .add _ => 0x200000000#35
  | .finalize => 0x400000000#35
  | .hashOnce _ _ => 0x600000000#35

/-! ### The data beat and the payload -/

/-- `last = DB[34]` (R67). -/
def beatLast (b : Beat) : Bool := b.getLsbD 34

/-- `cnt = DB[33:32]` (R67): the number of valid bytes minus one. -/
def beatCnt (b : Beat) : BitVec 2 := b.extractLsb' 32 2

/-- Lane `j` of the data field, `data[8*j+7:8*j]` (R67). -/
def beatLane (b : Beat) (j : Nat) : Byte := b.extractLsb' (8 * j) 8

/-- The bytes a beat carries: lanes `0 .. cnt` in that order; the lanes above are ignored (R68). -/
def beatBytes (b : Beat) : List Byte :=
  [beatLane b 0, beatLane b 1, beatLane b 2, beatLane b 3].take ((beatCnt b).toNat + 1)

/-- `DB = last * 2^34 + cnt * 2^32 + data` (R67), the data given by its four lanes, lane 0 lowest. -/
def beatMake (last : Bool) (cnt : BitVec 2) (l0 l1 l2 l3 : Byte) : Beat :=
  (BitVec.ofBool last ++ (cnt ++ (l3 ++ (l2 ++ (l1 ++ l0)))) :
    BitVec (1 + (2 + (8 + (8 + (8 + 8))))))

/-- `take` of R70 on the beats not yet taken: the payload up to and including the first beat with `last = 1`, and
how many beats that took; nothing while no such beat has come (the command waits, R177). -/
def take : List Beat → Option (List Byte × Nat)
  | [] => none
  | b :: bs =>
    if beatLast b then some (beatBytes b, 1)
    else match take bs with
      | none => none
      | some (P, n) => some (beatBytes b ++ P, n + 1)

/-- The canonical beat form of a payload (R71); no beat for the empty payload (R65). -/
def canonicalBeats : List Byte → List Beat
  | [] => []
  | [a] => [beatMake true 0#2 a 0#8 0#8 0#8]
  | [a, b] => [beatMake true 1#2 a b 0#8 0#8]
  | [a, b, c] => [beatMake true 2#2 a b c 0#8]
  | a :: b :: c :: d :: rest => beatMake rest.isEmpty 3#2 a b c d :: canonicalBeats rest

/-! ### Whole transactions -/

/-- Does this command take beats from the data channel (R65, R74)? -/
def needsBeats : Instr → Bool
  | .init _ => false
  | .add hasBeats => hasBeats
  | .finalize => false
  | .hashOnce _ hasBeats => hasBeats

/-- The transaction made of a decoded command and its payload; commands without payload ignore it (R74). -/
def commandOf : Instr → List Byte → Command
  | .init seed, _ => .init seed
  | .add _, P => .add P
  | .finalize, _ => .finalize
  | .hashOnce seed _, P => .hashOnce seed P

/-- Read one transaction: its command word and the beats not yet taken; the rest of the beats comes back (R69,
R74, and the reading half of the loop of 42_engine.md R131). -/
def nextCommand (w : CmdWord) (D : List Beat) : Option (Command × List Beat) :=
  if needsBeats (decode w) then
    match take D with
    | none => none
    | some (P, n) => some (commandOf (decode w) P, D.drop n)
  else some (commandOf (decode w) [], D)

/-- Read the transactions of a whole sequence of command words (R131). -/
def assemble : List CmdWord → List Beat → Option (List Command × List Beat)
  | [], D => some ([], D)
  | w :: ws, D =>
    match nextCommand w D with
    | none => none
    | some (c, D') =>
      match assemble ws D' with
      | none => none
      | some (cs, D'') => some (c :: cs, D'')

/-- The decoded command of a transaction: `hasBeats` exactly when the payload is not empty (R77, R79). -/
def instrOf : Command → Instr
  | .init seed => .init seed
  | .add P => .add (!P.isEmpty)
  | .finalize => .finalize
  | .hashOnce seed P => .hashOnce seed (!P.isEmpty)

/-- The payload of a transaction, empty where the command has none (R74). -/
def payloadOf : Command → List Byte
  | .init _ => []
  | .add P => P
  | .finalize => []
  | .hashOnce _ P => P

/-- The canonical encoding of a transaction: its command word and its beats (R79). -/
def encodeCommand (c : Command) : CmdWord × List Beat :=
  (encode (instrOf c), canonicalBeats (payloadOf c))

/-! ### The response word -/

/-- `RW = {status, hash}`, the hash field 0 where there is no value (R72). -/
def encodeResponse : Response → RspWord
  | .ok => (0#1 ++ 0#32 : BitVec (1 + 32))
  | .okHash h => (0#1 ++ h : BitVec (1 + 32))
  | .errInvalidState => (1#1 ++ 0#32 : BitVec (1 + 32))

/-- `rsp_decode(op, RW)` (R76): the host reads a response by the opcode of the command it answers. -/
def decodeResponse (op : BitVec 2) (w : RspWord) : Response :=
  if w.getLsbD 32 then .errInvalidState
  else if op = 0#2 ∨ op = 1#2 then .ok
  else .okHash (w.extractLsb' 0 32)

end Sys2Proof
end

