-- ==== Sys2Proof/Machine/Operands.lean ====
section
/-! DEFINITION. The operands: bytes and words read from a payload (20_memory.md R40 to R46) and the payload operand
itself, taken from the data channel (30_encoding.md R69, R73). The seed operand is verbatim and needs nothing (R64). -/

namespace Sys2Proof.Machine

/-- `zext_32` of a byte, the only extension there is (00_scope.md R10). -/
def zext32 (b : Byte) : Word := b.setWidth 32

/-- Four bytes as a little-endian word, the first the least significant (R43). -/
def leWord (b0 b1 b2 b3 : Byte) : Word :=
  zext32 b0 ||| (zext32 b1 <<< 8) ||| (zext32 b2 <<< 16) ||| (zext32 b3 <<< 24)

/-- `MemRead(i, 1)` (R10); no value outside the payload, where no rule ever reads (R46). -/
def memRead1 (P : List Byte) (i : Nat) : Option Byte := P[i]?

/-- `MemRead(i, 4)` (R10, R43), at any index (R45). -/
def memRead4 (P : List Byte) (i : Nat) : Option Word :=
  match memRead1 P i, memRead1 P (i + 1), memRead1 P (i + 2), memRead1 P (i + 3) with
  | some b0, some b1, some b2, some b3 => some (leWord b0 b1 b2 b3)
  | _, _, _, _ => none

/-- Take `n` beats off the data channel: they are gone and the index moves past them (R41, R131). -/
def takeBeats (n : Nat) (s : State) : State :=
  { s with beats := s.beats.drop n, k := s.k + n }

/-- The payload operand: empty without beats, else what `take` yields, with those beats gone; nothing while the
payload is not complete (R65, R69, R131, R177). -/
def takePayload (hasBeats : Bool) (s : State) : Option (List Byte × State) :=
  if hasBeats then
    match take s.beats with
    | none => none
    | some (P, n) => some (P, takeBeats n s)
  else some ([], s)

end Sys2Proof.Machine
end

