-- ==== Sys2Proof/Machine/Ops.lean ====
section
/-! DEFINITION. The shared operations: the hasher's micro-operations and procedures (41_hasher_fsm.md R101 to R106),
raising the one error (60_exceptions.md R150), answering (42_engine.md R134), and reset (70_reset_and_hazards.md
R170, R171). There is no return from an error, since there is no trap (R156, R157). -/

namespace Sys2Proof.Machine

/-! ### The hasher's data path -/

/-- TAILSTEP: absorb one byte through the tail (R101). -/
def tailStep (q : Quad) (b : Byte) : Quad :=
  let t := q.tail ||| (zext32 b <<< (8 * q.count.toNat))
  if q.count = 3#2 then { q with hash := mix q.hash t, tail := 0#32, count := 0#2 }
  else { q with tail := t, count := q.count + 1#2 }

/-- WORDSTEP: absorb one word of four payload bytes (R102). -/
def wordStep (q : Quad) (w : Word) : Quad := { q with hash := mix q.hash w }

/-- FILL on the bytes not yet consumed; what it leaves comes back (R103). -/
def fill : Quad → List Byte → Quad × List Byte
  | q, [] => (q, [])
  | q, b :: bs =>
    if q.count ≠ 0#2 ∨ (b :: bs).length < 4 then fill (tailStep q b) bs else (q, b :: bs)

/-- BULK on the bytes not yet consumed; what it leaves comes back (R104). -/
def bulk : Quad → List Byte → Quad × List Byte
  | q, b0 :: b1 :: b2 :: b3 :: bs => bulk (wordStep q (leWord b0 b1 b2 b3)) bs
  | q, bs => (q, bs)

/-- Phase A of ADD: the payload length joins SIZE modulo 2^32 (R112, R24). -/
def addSize (q : Quad) (n : Nat) : Quad := { q with size := q.size + BitVec.ofNat 32 n }

/-- Phases A to D of ADD on a quadruple: `absorb(q, P)` (R112, R136). -/
def absorb (q : Quad) (P : List Byte) : Quad :=
  let b := fill (addSize q P.length) P
  let c := bulk b.1 b.2
  (fill c.1 c.2).1

/-- `fmix`, the finishing step (R106). -/
def fmix (h : Word) : Word :=
  let a := h ^^^ (h >>> Config.S1)
  let b := Config.M * a
  b ^^^ (b >>> Config.S2)

/-- `finish(h, t, s)`: the hash FINALIZE computes (R114, R136). -/
def finish (h t s : Word) : Word := fmix (mix (mix h t) s)

/-- The quadruple of the architectural registers (R136). -/
def quadOf (r : Regs) : Quad := { hash := r.hash, tail := r.tail, count := r.count, size := r.size }

/-- Write the quadruple back; SEED and FIN stay (R112, R36). -/
def setQuad (r : Regs) (q : Quad) : Regs :=
  { r with hash := q.hash, tail := q.tail, count := q.count, size := q.size }

/-! ### The one error, answering, reset -/

/-- `raise InvalidState`: no register is written and the answer is the error (R150, R156). -/
def raiseInvalidState (r : Regs) : Regs × Response := (r, .errInvalidState)

/-- End a command: its registers are written and its response is offered (R131, R120). -/
def answer (x : Regs × Response) (s : State) : State := { s with regs := x.1, rsp := some x.2 }

/-- Take the next word off the command channel (R131). -/
def popCommand (s : State) : State := { s with cmds := s.cmds.tail }

/-- The transfer of an offered response, when the host is ready to take it (R61, R178). -/
def transferResponse (s : State) : State :=
  match s.rsp with
  | some r => if s.rspReady then { s with rsp := none, sent := s.sent ++ [r] } else s
  | none => s

/-- Reset: the registers take their reset values, a command in progress and an offered response are gone, and the
numbering of all channels starts again (R170, R171). The host's own pin `rsp_ready` is not the engine's to change;
what the host offers after reset is offered anew (log entry 5). -/
def resetEngine (s : State) : State := { State.reset with rspReady := s.rspReady }

end Sys2Proof.Machine
end

