-- ==== Sys2Proof/Machine/Hasher.lean ====
section
/-! DEFINITION. `incremental_hasher_fsm`: INIT, ADD and FINALIZE (41_hasher_fsm.md R110 to R115). Each is given
twice: its effect on the registers with its response (30_encoding.md R81), and its meaning in the engine, which takes
the payload off the data channel first (42_engine.md R131, R137). -/

namespace Sys2Proof.Machine

/-- `init(seed)` (R110): never fails, whatever the state before (R111). -/
def hasherInit (seed : Word) (r : Regs) : Regs × Response :=
  (setActive { r with hash := seed, tail := 0#32, count := 0#2, size := 0#32, seed := seed }, .ok)

/-- `add(P)` (R112): the state test comes before every write (R120, R151). -/
def hasherAdd (P : List Byte) (r : Regs) : Regs × Response :=
  if isFinalized r then raiseInvalidState r
  else (setQuad r (absorb (quadOf r) P), .ok)

/-- `finalize()` (R114): HASH keeps the value returned; TAIL, COUNT, SIZE and SEED stay. -/
def hasherFinalize (r : Regs) : Regs × Response :=
  if isFinalized r then raiseInvalidState r
  else
    let h := finish r.hash r.tail r.size
    (setFinalized { r with hash := h }, .okHash h)

/-- INIT (R110). -/
def execInit (seed : Word) (s : State) : Host.Outcome State Fault Refusal :=
  .next (answer (hasherInit seed s.regs) s)

/-- ADD (R112): waits for its whole payload (R177), which a rejected ADD takes and drops as well (R137). -/
def execAdd (hasBeats : Bool) (s : State) : Host.Outcome State Fault Refusal :=
  match takePayload hasBeats s with
  | none => .fault .awaitingPayload
  | some (P, s') => .next (answer (hasherAdd P s'.regs) s')

/-- FINALIZE (R114). -/
def execFinalize (s : State) : Host.Outcome State Fault Refusal :=
  .next (answer (hasherFinalize s.regs) s)

end Sys2Proof.Machine
end

