-- ==== Sys2Proof/Machine/Engine.lean ====
section
/-! DEFINITION. `murmur2a_engine`: HASH_ONCE on scratch registers (42_engine.md R132, R133) and the whole engine as
one total function on registers (R136). -/

namespace Sys2Proof.Machine

/-- `S_HASH <- seed; S_TAIL <- 0; S_COUNT <- 0; S_SIZE <- 0` (R132). -/
def scratchInit (seed : Word) : Quad := { hash := seed, tail := 0#32, count := 0#2, size := 0#32 }

/-- HASH_ONCE (R132): phases A to D on the scratch registers, then the finish; the registers are neither read nor
written (R133). -/
def engineHashOnce (seed : Word) (P : List Byte) (r : Regs) : Regs × Response :=
  let q := absorb (scratchInit seed) P
  (r, .okHash (finish q.hash q.tail q.size))

/-- HASH_ONCE in the engine: waits for its whole payload (R177). -/
def execHashOnce (seed : Word) (hasBeats : Bool) (s : State) : Host.Outcome State Fault Refusal :=
  match takePayload hasBeats s with
  | none => .fault .awaitingPayload
  | some (P, s') => .next (answer (engineHashOnce seed P s'.regs) s')

/-- `exec(c, P)` of R136: registers before to registers after and the response. -/
def execCommand (c : Command) (r : Regs) : Regs × Response :=
  match c with
  | .init seed => hasherInit seed r
  | .add P => hasherAdd P r
  | .finalize => hasherFinalize r
  | .hashOnce seed P => engineHashOnce seed P r

/-- A sequence of commands, each seeing the state the one before left, with the responses in order (R134, R135). -/
def runCommands : List Command → Regs → Regs × List Response
  | [], r => (r, [])
  | c :: cs, r =>
    let x := execCommand c r
    let y := runCommands cs x.1
    (y.1, x.2 :: y.2)

end Sys2Proof.Machine
end

