-- ==== Sys2Proof/Machine/Dispatch.lean ====
section
/-! DEFINITION. One arm per command (30_encoding.md R66). -/

namespace Sys2Proof.Machine

def exec (i : Instr) (s : State) : Host.Outcome State Fault Refusal :=
  match i with
  | .init seed => Sys2Proof.Machine.execInit seed s
  | .add hasBeats => Sys2Proof.Machine.execAdd hasBeats s
  | .finalize => Sys2Proof.Machine.execFinalize s
  | .hashOnce seed hasBeats => Sys2Proof.Machine.execHashOnce seed hasBeats s

end Sys2Proof.Machine
end

