-- ==== Sys2Proof/Machine/HostOps.lean ====
section
/-! DEFINITION. What the host can do to the machine between two steps (70_reset_and_hazards.md R183), and the lone
bookkeeping the loop of 42_engine.md R131 does around a command. -/

namespace Sys2Proof.Machine

/-- The host's actions at step grain (R183). -/
inductive HostAct where
  /-- Offer a command word, behind those already offered (R61). -/
  | offerCommand (w : CmdWord)
  /-- Offer a data beat, behind those already offered, before, with or after its command (R180). -/
  | offerBeat (b : Beat)
  /-- Drive `rsp_ready` (R178). -/
  | setRspReady (v : Bool)
  /-- Apply reset, at any time (R170, R171). -/
  | assertReset
  deriving DecidableEq, Repr

/-- The effect of a host action: on the host's own pins and words only. -/
def hostAct (a : HostAct) (s : State) : State :=
  match a with
  | .offerCommand w => { s with cmds := s.cmds ++ [w] }
  | .offerBeat b => { s with beats := s.beats ++ [b] }
  | .setRspReady v => { s with rspReady := v }
  | .assertReset => { s with rst := true }

/-- The end of a command step: the response just offered is transferred at once when the host is ready (R131). -/
def afterExec (o : Host.Outcome State Fault Refusal) : Host.Outcome State Fault Refusal :=
  match o with
  | .next t => .next (transferResponse t)
  | .fault f => .fault f
  | .refused r => .refused r

/-- One final beat of one zero byte: the shortest payload there is (R68). -/
def zeroBeat : Beat := beatMake true 0#2 0#8 0#8 0#8 0#8

/-- Put a command word first on the command channel, ready to be taken: no reset, no response outstanding, and, for
a command with beats, a complete payload on the data channel (log entry 7). -/
def placeCommand (w : CmdWord) (s : State) : State :=
  { s with
    cmds := w :: s.cmds
    beats := if needsBeats (decode w) && (take s.beats).isNone then s.beats ++ [zeroBeat] else s.beats
    rsp := none
    rst := false }

end Sys2Proof.Machine
end

