-- ==== Sys2Proof/Machine/Step.lean ====
section
/-! DEFINITION. One step of the engine (42_engine.md R131, R135): reset first (60_exceptions.md R155); then a response
left waiting is transferred, or waits on; otherwise the next command word is taken and executed with its payload, and
its response is offered. -/

namespace Sys2Proof.Machine

def step (s : State) : Host.Outcome State Fault Refusal :=
  if s.rst then .next (resetEngine s)
  else if s.rsp.isSome then
    if s.rspReady then .next (transferResponse s) else .fault .awaitingResponse
  else
    match s.cmds with
    | [] => .fault .awaitingCommand
    | w :: _ => afterExec (exec (decode w) (popCommand s))

/-- The host's form: `s` with the table word `w` where `step` takes its next command. A number that is no command
word is not placed. -/
def State.withFetchWord (s : State) (nbits w : Nat) : State :=
  if isWord35 (w % 2 ^ nbits) then placeCommand (BitVec.ofNat 35 (w % 2 ^ nbits)) s else s

end Sys2Proof.Machine
end

