-- ==== Sys2Proof/Machine/Assembler.lean ====
section
/-! DEFINITION. The text form of commands and responses (30_encoding.md R77) and its two pseudo-instructions (R78).
It is notation for writing sequences of commands down; the engine never sees it. Points R77 leaves open are log
entry 14. -/

namespace Sys2Proof.Machine

/-- The double quote of a string payload (R77). -/
def quoteChar : Char := Char.ofNat 34

/-- Cut a line at its comment: from `;` on, unless the `;` stands inside a string (R77). -/
def stripComment : Bool → List Char → List Char
  | _, [] => []
  | inString, c :: cs =>
    if c = quoteChar then c :: stripComment (!inString) cs
    else if c = ';' && !inString then []
    else c :: stripComment inString cs

/-- Drop leading blanks. -/
def skipBlanks : List Char → List Char
  | [] => []
  | c :: cs => if c = ' ' then skipBlanks cs else c :: cs

/-- The value of a hexadecimal digit. -/
def hexDigit (c : Char) : Option Nat :=
  if '0' ≤ c ∧ c ≤ '9' then some (c.toNat - 48)
  else if 'A' ≤ c ∧ c ≤ 'F' then some (c.toNat - 55)
  else if 'a' ≤ c ∧ c ≤ 'f' then some (c.toNat - 87)
  else none

/-- Digits of a base from the left, starting from an accumulated value. -/
def digits (base : Nat) : Nat → List Char → Option Nat
  | acc, [] => some acc
  | acc, c :: cs =>
    match hexDigit c with
    | some d => if d < base then digits base (base * acc + d) cs else none
    | none => none

/-- A `u32` literal, decimal or `0x` hexadecimal (R77). -/
def literal (cs : List Char) : Option Word :=
  let n := match cs with
    | [] => none
    | ['0', 'x'] => none
    | '0' :: 'x' :: ds => digits 16 0 ds
    | ds => digits 10 0 ds
  match n with
  | some v => if v < 2 ^ 32 then some (BitVec.ofNat 32 v) else none
  | none => none

/-- Two-digit hexadecimal bytes up to the closing bracket; the characters after it come back (R77). -/
def byteList : List Char → Option (List Byte × List Char)
  | [] => none
  | ']' :: rest => some ([], rest)
  | ' ' :: rest => byteList rest
  | a :: b :: rest =>
    match hexDigit a, hexDigit b, byteList rest with
    | some h, some l, some (bs, r) => some (BitVec.ofNat 8 (16 * h + l) :: bs, r)
    | _, _, _ => none
  | [_] => none

/-- The ASCII codes of the characters up to the closing quote, no terminator and no escapes (R77). -/
def asciiString : List Char → Option (List Byte × List Char)
  | [] => none
  | c :: cs =>
    if c = quoteChar then some ([], cs)
    else if c.toNat < 128 then
      match asciiString cs with
      | some (bs, r) => some (BitVec.ofNat 8 c.toNat :: bs, r)
      | none => none
    else none

/-- A payload literal, with nothing but blanks after it (R77). -/
def payloadLiteral (cs : List Char) : Option (List Byte) :=
  let r := match skipBlanks cs with
    | [] => none
    | c :: rest => if c = '[' then byteList rest else if c = quoteChar then asciiString rest else none
  match r with
  | some (P, rest) => if skipBlanks rest = [] then some P else none
  | none => none

/-- `HASHCTX seed, bytes` (R78). -/
def hashctx (seed : Word) (P : List Byte) : List Command := [.init seed, .add P, .finalize]

/-- The operand `seed, bytes` of HASH_ONCE and HASHCTX (R77, R78). -/
def seedAndPayload (cs : List Char) : Option (Word × List Byte) :=
  let s := (skipBlanks cs).takeWhile (fun c => c != ',' && c != ' ')
  match literal s, skipBlanks ((skipBlanks cs).drop s.length) with
  | some seed, ',' :: rest =>
    match payloadLiteral rest with
    | some P => some (seed, P)
    | none => none
  | _, _ => none

/-- The operand of INIT: a literal, or nothing for the default seed (R77, R78). -/
def seedOperand (cs : List Char) : Option Word :=
  let s := (skipBlanks cs).takeWhile (fun c => c != ' ')
  if s = [] then some Config.seedDefault
  else if skipBlanks ((skipBlanks cs).drop s.length) = [] then literal s else none

/-- One line: the commands it stands for; a blank or comment line stands for none (R77, R78). -/
def assembleLine (line : List Char) : Option (List Command) :=
  let cs := skipBlanks (stripComment false line)
  let name := cs.takeWhile (fun c => c != ' ')
  let operand := cs.drop name.length
  if name = [] then some []
  else if name = ['I', 'N', 'I', 'T'] then
    match seedOperand operand with
    | some seed => some [.init seed]
    | none => none
  else if name = ['A', 'D', 'D'] then
    match payloadLiteral operand with
    | some P => some [.add P]
    | none => none
  else if name = ['F', 'I', 'N', 'A', 'L', 'I', 'Z', 'E'] then
    if skipBlanks operand = [] then some [.finalize] else none
  else if name = ['H', 'A', 'S', 'H', '_', 'O', 'N', 'C', 'E'] then
    match seedAndPayload operand with
    | some (seed, P) => some [.hashOnce seed P]
    | none => none
  else if name = ['H', 'A', 'S', 'H', 'C', 'T', 'X'] then
    match seedAndPayload operand with
    | some (seed, P) => some (hashctx seed P)
    | none => none
  else none

/-- A text: one command per line (R77). -/
def assembleLines : List (List Char) → Option (List Command)
  | [] => some []
  | l :: ls =>
    match assembleLine l, assembleLines ls with
    | some cs, some rest => some (cs ++ rest)
    | _, _ => none

/-- The canonical words and beats of a sequence of commands, in order (R77, R79). -/
def emit (cs : List Command) : List CmdWord × List Beat :=
  (cs.map (fun c => (encodeCommand c).1), (cs.map (fun c => (encodeCommand c).2)).flatten)

/-- A hexadecimal digit as the vectors write it. -/
def hexChar (n : Nat) : Char := if n < 10 then Char.ofNat (48 + n) else Char.ofNat (55 + n)

/-- Eight hexadecimal digits of a word, the highest first. -/
def hexWord (w : Word) : List Char :=
  [7, 6, 5, 4, 3, 2, 1, 0].map (fun j => hexChar (w.extractLsb' (4 * j) 4).toNat)

/-- A response as it is written after its command (R77). -/
def responseText : Response → List Char
  | .ok => ['-', '>', ' ', 'O', 'k']
  | .okHash h => ['-', '>', ' ', 'O', 'k', 'H', 'a', 's', 'h', '(', '0', 'x'] ++ hexWord h ++ [')']
  | .errInvalidState =>
    ['-', '>', ' ', 'E', 'r', 'r', '(', 'I', 'n', 'v', 'a', 'l', 'i', 'd', 'S', 't', 'a', 't', 'e', ')']

end Sys2Proof.Machine
end

