-- ==== Sys2Proof/Machine/ClosedForms.lean ====
section
/-! DEFINITION. The closed forms the spec derives: ADD as one fold over words (41_hasher_fsm.md R108) and the hash as
a formula (42_engine.md R141). The machine does not use them; claims compare it with them. -/

namespace Sys2Proof.Machine

/-- The whole words `W[j]` of a byte sequence (R108, R141). -/
def fullWords : List Byte → List Word
  | b0 :: b1 :: b2 :: b3 :: bs => leWord b0 b1 b2 b3 :: fullWords bs
  | _ => []

/-- The 0 to 3 bytes after the whole words (R108, R141). -/
def leftover : List Byte → List Byte
  | _ :: _ :: _ :: _ :: bs => leftover bs
  | bs => bs

/-- The sum of `zext_32(b[j]) << (8*j)` (R141). -/
def packSum : List Byte → Word
  | [] => 0#32
  | b :: bs => zext32 b + (packSum bs <<< 8)

/-- The pending bytes `T[j] = TAIL[8*j+7:8*j]` for `j < COUNT` (R108, R22). -/
def pendingBytes (q : Quad) : List Byte :=
  (List.range q.count.toNat).map (fun j => q.tail.extractLsb' (8 * j) 8)

/-- The state after an accepted ADD, in closed form (R108). -/
def absorbClosed (q : Quad) (P : List Byte) : Quad :=
  { hash := (fullWords (pendingBytes q ++ P)).foldl mix q.hash
    tail := packSum (leftover (pendingBytes q ++ P))
    count := BitVec.ofNat 2 (pendingBytes q ++ P).length
    size := q.size + BitVec.ofNat 32 P.length }

/-- `hash32(s, b)` (R141). -/
def hash32 (s : Word) (b : List Byte) : Word :=
  fmix (mix (mix ((fullWords b).foldl mix s) (packSum (leftover b))) (BitVec.ofNat 32 b.length))

end Sys2Proof.Machine
end

