-- ==== Sys2Proof/Machine/Phases.lean ====
section
/-! DEFINITION. The micro-phases of `incremental_hasher_fsm` (41_hasher_fsm.md R118): the table's rows one visit at a
time, on the hidden registers PH and the cursor (10_state.md R32). `exec` takes each command as one atomic transition,
as R121 asks; this machine is what lies inside it. -/

namespace Sys2Proof.Machine

/-- PH (R118). -/
inductive Phase where
  | idle | aSize | bFill | cBulk | dFill | fTail | fSize | fAval
  deriving DecidableEq, Repr

/-- The state machine inside a command (R118, R32). -/
structure Fsm where
  regs : Regs
  /-- PH. -/
  ph : Phase
  /-- The payload cursor. -/
  i : Nat
  /-- The payload of the command in progress. -/
  payload : List Byte
  /-- The response, once the phases have ended. -/
  out : Option Response
  deriving DecidableEq, Repr

/-- The FILL condition, evaluated afresh before every byte (R103). -/
def fillCond (f : Fsm) : Bool :=
  decide (f.i < f.payload.length) && (decide (f.regs.count ≠ 0#2) || decide (f.payload.length - f.i < 4))

/-- One tail step of the byte under the cursor (R118 rows B_FILL, D_FILL). -/
def fillVisit (f : Fsm) : Fsm :=
  match memRead1 f.payload f.i with
  | some b => { f with regs := setQuad f.regs (tailStep (quadOf f.regs) b), i := f.i + 1 }
  | none => f

/-- One word step of the word under the cursor (R118 row C_BULK). -/
def bulkVisit (f : Fsm) : Fsm :=
  match memRead4 f.payload f.i with
  | some w => { f with regs := setQuad f.regs (wordStep (quadOf f.regs) w), i := f.i + 4 }
  | none => f

/-- One visit of a phase (R118). In IDLE nothing moves. -/
def phaseStep (f : Fsm) : Fsm :=
  match f.ph with
  | .idle => f
  | .aSize =>
    { f with regs := setQuad f.regs (addSize (quadOf f.regs) f.payload.length), i := 0, ph := .bFill }
  | .bFill => if fillCond f then fillVisit f else { f with ph := .cBulk }
  | .cBulk => if 4 ≤ f.payload.length - f.i then bulkVisit f else { f with ph := .dFill }
  | .dFill => if fillCond f then fillVisit f else { f with ph := .idle, out := some .ok }
  | .fTail => { f with regs := { f.regs with hash := mix f.regs.hash f.regs.tail }, ph := .fSize }
  | .fSize => { f with regs := { f.regs with hash := mix f.regs.hash f.regs.size }, ph := .fAval }
  | .fAval =>
    { f with
      regs := setFinalized { f.regs with hash := fmix f.regs.hash }
      ph := .idle
      out := some (.okHash (fmix f.regs.hash)) }

/-- The row IDLE of R118: a command enters. INIT and a rejected command end at once, in IDLE. HASH_ONCE is the
engine's and does not enter this machine; it runs the rows of ADD and FINALIZE on `scratchRegs` (R132). -/
def phaseStart (r : Regs) (c : Command) : Fsm :=
  match c with
  | .init seed =>
    { regs := (hasherInit seed r).1, ph := .idle, i := 0, payload := [], out := some (hasherInit seed r).2 }
  | .add P =>
    if isFinalized r then { regs := r, ph := .idle, i := 0, payload := P, out := some .errInvalidState }
    else { regs := r, ph := .aSize, i := 0, payload := P, out := none }
  | .finalize =>
    if isFinalized r then { regs := r, ph := .idle, i := 0, payload := [], out := some .errInvalidState }
    else { regs := r, ph := .fTail, i := 0, payload := [], out := none }
  | .hashOnce _ P => { regs := r, ph := .idle, i := 0, payload := P, out := none }

/-- A number of visits in a row. -/
def phaseRun : Nat → Fsm → Fsm
  | 0, f => f
  | n + 1, f => phaseRun n (phaseStep f)

/-- The scratch registers of HASH_ONCE as a fresh register set: as INIT leaves them (R132). -/
def scratchRegs (seed : Word) : Regs := (hasherInit seed resetRegs).1

end Sys2Proof.Machine
end

