-- ==== Sys2Proof/Machine/Pins.lean ====
section
/-! DEFINITION. The engine at its ports, one rising clock edge at a time (30_encoding.md R60, R61; the loop of
42_engine.md R131 between its waits). The spec fixes no timing (70_reset_and_hazards.md R181): how long the engine
keeps a `ready` low and how long it executes is an argument of each edge, so what is proved holds for every timing. -/

namespace Sys2Proof.Machine

/-- The input ports other than `clk` (R60). -/
structure PinsIn where
  rst : Bool
  cmdValid : Bool
  cmdWord : CmdWord
  datValid : Bool
  datBeat : Beat
  rspReady : Bool
  deriving DecidableEq, Repr

/-- The output ports (R60). `rspWord` carries a word exactly while `rsp_valid` is 1; the spec gives it no value at
other times. -/
structure PinsOut where
  cmdReady : Bool
  datReady : Bool
  rspWord : Option RspWord
  deriving DecidableEq, Repr

/-- The engine's own pace at one edge, which the spec leaves open (R181): is it willing to take a word, a beat; has
it finished executing? -/
structure Timing where
  takesCommand : Bool
  takesBeat : Bool
  done : Bool
  deriving DecidableEq, Repr

/-- Where the loop of R131 stands. -/
inductive Loop where
  /-- Waiting for a command word. -/
  | idle
  /-- Collecting the payload of a command; the bytes so far (R70). -/
  | collecting (i : Instr) (P : List Byte)
  /-- Executing a whole command; its effects are not visible yet (R121). -/
  | executing (c : Command)
  /-- Offering the response until it is taken (R178). -/
  | offering (r : Response)
  deriving DecidableEq, Repr

/-- The engine between two clock edges. -/
structure PinEngine where
  /-- The registers. DESIGN CHOICE (log entry 17): while a command is collected or executed they stand at the values
  from before it, where R119 and U3 of 93_implementation_defined.md give HASH, TAIL, COUNT, SIZE and FIN no value. -/
  regs : Regs
  loop : Loop
  /-- The index of the first data beat not yet taken (R131). -/
  k : Nat
  deriving DecidableEq, Repr

/-- After reset: waiting for a command word (R170, R171). -/
def pinReset : PinEngine := { regs := resetRegs, loop := .idle, k := 0 }

/-- The outputs at an edge (R60): all idle while `rst = 1` (R170); `cmd_ready` only between commands (R135);
`dat_ready` only while a payload is collected (R180); `rsp_valid` from the offer until the transfer (R178). -/
def pinsOut (e : PinEngine) (p : PinsIn) (t : Timing) : PinsOut :=
  if p.rst then { cmdReady := false, datReady := false, rspWord := none }
  else
    match e.loop with
    | .idle => { cmdReady := t.takesCommand, datReady := false, rspWord := none }
    | .collecting _ _ => { cmdReady := false, datReady := t.takesBeat, rspWord := none }
    | .executing _ => { cmdReady := false, datReady := false, rspWord := none }
    | .offering r => { cmdReady := false, datReady := false, rspWord := some (encodeResponse r) }

/-- The command word transferred at an edge, if any: `valid` and `ready` are both 1 (R61). -/
def xferCommand (e : PinEngine) (p : PinsIn) (t : Timing) : Option CmdWord :=
  if p.cmdValid && (pinsOut e p t).cmdReady then some p.cmdWord else none

/-- The data beat transferred at an edge, if any (R61). -/
def xferBeat (e : PinEngine) (p : PinsIn) (t : Timing) : Option Beat :=
  if p.datValid && (pinsOut e p t).datReady then some p.datBeat else none

/-- The response word transferred at an edge, if any (R61). -/
def xferResponse (e : PinEngine) (p : PinsIn) (t : Timing) : Option RspWord :=
  if p.rspReady then (pinsOut e p t).rspWord else none

/-- A command word has been taken: collect its payload, or execute it at once (R131). -/
def loopBegin (w : CmdWord) : Loop :=
  if needsBeats (decode w) then .collecting (decode w) [] else .executing (commandOf (decode w) [])

/-- A beat has been taken: its bytes join the payload, which its `last` ends (R70). -/
def loopBeat (i : Instr) (P : List Byte) (b : Beat) : Loop :=
  if beatLast b then .executing (commandOf i (P ++ beatBytes b)) else .collecting i (P ++ beatBytes b)

/-- One rising clock edge (R61, R131, R170, R171). Two points are the model's DESIGN CHOICE. A channel takes the word
that stands on it at the transfer edge, also from a host that changed its offer before, a situation U9 of
93_implementation_defined.md refuses to describe (log entry 16). The registers change in one piece at the end of
executing, where R119 and U3 leave their values inside a command unspecified (log entry 17). -/
def edge (e : PinEngine) (p : PinsIn) (t : Timing) : PinEngine :=
  if p.rst then pinReset
  else
    match e.loop with
    | .idle =>
      match xferCommand e p t with
      | some w => { e with loop := loopBegin w }
      | none => e
    | .collecting i P =>
      match xferBeat e p t with
      | some b => { e with loop := loopBeat i P b, k := e.k + 1 }
      | none => e
    | .executing c =>
      if t.done then
        { e with regs := (execCommand c e.regs).1, loop := .offering (execCommand c e.regs).2 }
      else e
    | .offering _ =>
      match xferResponse e p t with
      | some _ => { e with loop := .idle }
      | none => e

/-- The three sequences of R61: what was transferred on each channel. -/
structure Xfers where
  cmds : List CmdWord
  beats : List Beat
  rsps : List RspWord
  deriving DecidableEq, Repr

/-- What one edge transfers. -/
def edgeXfers (e : PinEngine) (p : PinsIn) (t : Timing) : Xfers :=
  { cmds := (xferCommand e p t).toList, beats := (xferBeat e p t).toList, rsps := (xferResponse e p t).toList }

/-- One sequence of transfers after another. -/
def joinXfers (x y : Xfers) : Xfers :=
  { cmds := x.cmds ++ y.cmds, beats := x.beats ++ y.beats, rsps := x.rsps ++ y.rsps }

/-- A run of edges, with what it transferred. -/
def edges : List (PinsIn × Timing) → PinEngine → PinEngine × Xfers
  | [], e => (e, { cmds := [], beats := [], rsps := [] })
  | (p, t) :: rest, e =>
    let y := edges rest (edge e p t)
    (y.1, joinXfers (edgeXfers e p t) y.2)

/-- The first `n` edges of an endless run. -/
def edgesTo (es : Nat → PinsIn × Timing) (n : Nat) (e : PinEngine) : PinEngine × Xfers :=
  edges ((List.range n).map es) e

end Sys2Proof.Machine
end

