-- ==== Sys2Proof/Machine/System.lean ====
section
/-! DEFINITION. Several engines in one system (42_engine.md R143): each has its own registers, channels and reset, and
they share nothing. -/

namespace Sys2Proof.Machine

/-- The engines after engine `n` has taken a step that answers a next state; nothing if it has none. -/
def stepEngine (n : Nat) (sys : List State) : Option (List State) :=
  match sys[n]? with
  | none => none
  | some s =>
    match step s with
    | .next t => some (sys.set n t)
    | .fault _ => none
    | .refused _ => none

end Sys2Proof.Machine
end

