-- ==== Sys2Proof/Safety.lean ====
section
/-! DEFINITION. The terms claims are stated in: the invariants of the registers (10_state.md R27, R29), the states a
run can reach, when a payload is ready (30_encoding.md R69), what counts towards SIZE (R28), and when the engine is
quiescent (70_reset_and_hazards.md R175); and, for runs of clock edges, a host that meets its duties and an engine that
makes progress (R177, R178, R182). -/

namespace Sys2Proof

open Sys2Proof.Machine

/-- The tail invariant `TAIL[31:8*COUNT] = 0` (R27). -/
def TailInv (q : Quad) : Prop := q.tail >>> (8 * q.count.toNat) = 0#32

/-- The count invariant `COUNT = SIZE[1:0]` (R29). -/
def CountInv (q : Quad) : Prop := q.count = q.size.extractLsb' 0 2

/-- The states reached from reset by steps and host actions, in any order (R6, R183). -/
inductive Reachable : State → Prop where
  | reset : Reachable State.reset
  | step {s t : State} : Reachable s → Machine.step s = .next t → Reachable t
  | host {s : State} (a : HostAct) : Reachable s → Reachable (hostAct a s)

/-- The payload operand of a command is `P` and takes `n` beats: the empty payload takes none, any other is what the
channel offers up to its `last` beat (R65, R69). -/
def PayloadReady (hasBeats : Bool) (s : State) (P : List Byte) (n : Nat) : Prop :=
  (hasBeats = false ∧ P = [] ∧ n = 0) ∨ (hasBeats = true ∧ take s.beats = some (P, n))

/-- Nothing is outstanding: no response is offered (R175) and no command word is offered either. The second half is the
model's DESIGN CHOICE (log entry 18): R175 counts transferred words only, but `cmds` does not tell a word that is merely
offered from one whose payload is still awaited. At the pins R175 is exactly `loop = .idle`. -/
def Quiescent (s : State) : Prop := s.cmds = [] ∧ s.rsp = none

/-- A host that meets its duties in an endless run from `e`, with the command words `ws` and the data beats `D` to
send: it applies no reset; what it offers is always the next word and the next beat not yet transferred (R61, U9); each
of them it offers from some edge on until it is transferred, before, with or after the words of the other channel
(R177, R180); and it is ready for a response again and again (R178). After its last word and its last beat it may offer
anything. -/
structure Dutiful (es : Nat → PinsIn × Timing) (e : PinEngine) (ws : List CmdWord) (D : List Beat) : Prop where
  noReset : ∀ n, (es n).1.rst = false
  nextWord : ∀ n, (edgesTo es n e).2.cmds.length < ws.length → (es n).1.cmdValid = true →
    ws[(edgesTo es n e).2.cmds.length]? = some (es n).1.cmdWord
  nextBeat : ∀ n, (edgesTo es n e).2.beats.length < D.length → (es n).1.datValid = true →
    D[(edgesTo es n e).2.beats.length]? = some (es n).1.datBeat
  offersWords : ∀ j, j < ws.length → ∃ m, ∀ n, m ≤ n → (edgesTo es n e).2.cmds.length = j → (es n).1.cmdValid = true
  offersBeats : ∀ j, j < D.length → ∃ m, ∀ n, m ≤ n → (edgesTo es n e).2.beats.length = j → (es n).1.datValid = true
  takesResponses : ∀ n, ∃ m, n ≤ m ∧ (es m).1.rspReady = true

/-- An engine that never waits on anything but its host (R182): however slow, it is again and again willing to take a
word, willing to take a beat, and done executing. -/
structure MakesProgress (es : Nat → PinsIn × Timing) : Prop where
  takesCommand : ∀ n, ∃ m, n ≤ m ∧ (es m).2.takesCommand = true
  takesBeat : ∀ n, ∃ m, n ≤ m ∧ (es m).2.takesBeat = true
  done : ∀ n, ∃ m, n ≤ m ∧ (es m).2.done = true

/-- INIT? -/
def isInit : Command → Bool
  | .init _ => true
  | .add _ => false
  | .finalize => false
  | .hashOnce _ _ => false

/-- HASH_ONCE? -/
def isHashOnce : Command → Bool
  | .init _ => false
  | .add _ => false
  | .finalize => false
  | .hashOnce _ _ => true

/-- ADD or FINALIZE: the commands that can be rejected (R153). -/
def canFail : Command → Bool
  | .init _ => false
  | .add _ => true
  | .finalize => true
  | .hashOnce _ _ => false

/-- The payload bytes of the ADDs accepted since the last INIT, from a lifecycle state (`fin`) and a count so far
(R28): an INIT starts again from none, a FINALIZE ends the accepting, a rejected ADD adds nothing. -/
def acceptedBytes : Bool → Nat → List Command → Nat
  | _, n, [] => n
  | _, _, .init _ :: cs => acceptedBytes false 0 cs
  | fin, n, .add P :: cs => acceptedBytes fin (if fin then n else n + P.length) cs
  | _, n, .finalize :: cs => acceptedBytes true n cs
  | fin, n, .hashOnce _ _ :: cs => acceptedBytes fin n cs

end Sys2Proof
end

