-- ==== Sys2Proof/Certificates/Slice0/Obligations.lean ====
section
/-! DEFINITION. The statements for the provers. Each docstring names the rules of spec/ it formalises; a clause that
rests on the model's own choice says so and names the log entry. -/

open Sys2Proof Sys2Proof.Machine

/-! ### Reset and registers -/

/-- R34: the values after reset, that a reset step leaves them, that ADD and FINALIZE are refused until the first INIT
(until then every command leaves the reset values), that the invariants R27 and R29 hold there, and that the five data
values are unobservable: with FIN = 1 no later response depends on them. -/
def Obligations.ResetValuesAreUnobservableZeros : Prop :=
  State.reset.regs = { hash := 0#32, tail := 0#32, count := 0#2, size := 0#32, seed := 0#32, fin := true } ∧
  (∀ s, s.rst = true → ∃ t, step s = .next t ∧ t.regs = State.reset.regs) ∧
  (∀ P, execCommand (.add P) State.reset.regs = (State.reset.regs, .errInvalidState)) ∧
  execCommand .finalize State.reset.regs = (State.reset.regs, .errInvalidState) ∧
  (∀ cs : List Command, (∀ c ∈ cs, isInit c = false) → (runCommands cs State.reset.regs).1 = State.reset.regs) ∧
  TailInv (quadOf State.reset.regs) ∧ CountInv (quadOf State.reset.regs) ∧
  ∀ (cs : List Command) (r : Regs), r.fin = true →
    (runCommands cs r).2 = (runCommands cs State.reset.regs).2

/-- R170, R171 on the whole state: reset wins over everything, the offered response is withdrawn, the beat index and
the response numbering restart. That words offered before the reset are offered anew and that the step ends the reset
are the model's choices (log entry 5). -/
def Obligations.ResetStepRestartsEverything : Prop :=
  ∀ s : State, s.rst = true →
    step s = .next
      { regs := { hash := 0#32, tail := 0#32, count := 0#2, size := 0#32, seed := 0#32, fin := true }
        cmds := []
        beats := []
        k := 0
        rsp := none
        sent := []
        rspReady := s.rspReady
        rst := false }

/-- R27: the tail invariant holds in every state reached from reset, every step keeps it from every state that has
it, and with it COUNT = 0 implies TAIL = 0. -/
def Obligations.TailInvariantIsInductive : Prop :=
  (∀ s, Reachable s → TailInv (quadOf s.regs)) ∧
  (∀ s t, TailInv (quadOf s.regs) → step s = .next t → TailInv (quadOf t.regs)) ∧
  ∀ q : Quad, TailInv q → q.count = 0#2 → q.tail = 0#32

/-- R29: COUNT = SIZE mod 4 in every state reached from reset, and every step keeps it from every state that has
it. -/
def Obligations.CountInvariantIsInductive : Prop :=
  (∀ s, Reachable s → s.regs.count.toNat = s.regs.size.toNat % 4) ∧
  ∀ s t, CountInv (quadOf s.regs) → step s = .next t → CountInv (quadOf t.regs)

/-- R28: after INIT and any further commands (rejected ADDs, HASH_ONCEs and later INITs among them) SIZE is the sum,
modulo 2^32, of the payload lengths of the ADDs accepted since the last INIT. -/
def Obligations.SizeCountsAcceptedBytes : Prop :=
  ∀ (seed : Word) (cs : List Command) (r : Regs),
    (runCommands (.init seed :: cs) r).1.size = BitVec.ofNat 32 (acceptedBytes false 0 cs)

/-- R25: INIT writes SEED, nothing else does, and nothing reads it: two register files that differ in SEED alone give
the same responses for ever and never differ in another register. -/
def Obligations.SeedRegisterIsUnobservable : Prop :=
  (∀ (seed : Word) (r : Regs), (execCommand (.init seed) r).1.seed = seed) ∧
  (∀ (c : Command) (r : Regs), isInit c = false → (execCommand c r).1.seed = r.seed) ∧
  ∀ (cs : List Command) (r : Regs) (x : Word),
    (runCommands cs { r with seed := x }).2 = (runCommands cs r).2 ∧
    { (runCommands cs { r with seed := x }).1 with seed := (runCommands cs r).1.seed } = (runCommands cs r).1

/-- R31, R183: no host action reaches a register, the beat index or a response; its reset request acts only through
the next step. -/
def Obligations.HostActionsReachNoRegister : Prop :=
  ∀ (a : HostAct) (s : State),
    (hostAct a s).regs = s.regs ∧ (hostAct a s).k = s.k ∧ (hostAct a s).rsp = s.rsp ∧ (hostAct a s).sent = s.sent

/-! ### Encodings -/

/-- Decode of encode is the identity on every well-formed decoded command, every operand at every value. -/
def Obligations.DecodeEncodeRoundTrip : Prop :=
  ∀ i : Instr, i.wellFormed = true → decode (encode i) = i

/-- R79: the canonical words; every command transaction, with any beats behind it, is read back from its encoding; and
only canonical words survive decode and encode. -/
def Obligations.TransactionRoundTrip : Prop :=
  (∀ s : Word, (encodeCommand (.init s)) = (s.setWidth 35, [])) ∧
  encodeCommand (.add []) = (0x300000000#35, []) ∧
  (∀ P : List Byte, P ≠ [] → encodeCommand (.add P) = (0x200000000#35, canonicalBeats P)) ∧
  encodeCommand .finalize = (0x400000000#35, []) ∧
  (∀ s : Word, encodeCommand (.hashOnce s []) = (0x700000000#35 + s.setWidth 35, [])) ∧
  (∀ (s : Word) (P : List Byte), P ≠ [] →
    encodeCommand (.hashOnce s P) = (0x600000000#35 + s.setWidth 35, canonicalBeats P)) ∧
  (∀ (c : Command) (rest : List Beat),
    nextCommand (encodeCommand c).1 ((encodeCommand c).2 ++ rest) = some (c, rest)) ∧
  ∀ w : CmdWord, encode (decode w) = w ↔ ∃ i : Instr, w = encode i

/-- A whole sequence of commands is read back from its canonical words and beats (R69, R79, R131). -/
def Obligations.SessionRoundTrip : Prop :=
  ∀ (cs : List Command) (rest : List Beat),
    assemble (emit cs).1 ((emit cs).2 ++ rest) = some (cs, rest)

/-- R66: the four opcodes, and the mask and match form of the map: a word decodes to a command of a mnemonic exactly
when its masked bits are that mnemonic's match value. -/
def Obligations.OpcodeMapMaskAndMatch : Prop :=
  ∀ (w : CmdWord) (i : Instr),
    (w &&& opMask = opMatch i ↔ opcode (decode w) = opcode i) ∧
    opcode (decode w) = w.extractLsb' 33 2

/-- R76 (and R64, R65, R75): decode of a command word by its fields, the fields a command ignores left out; every
word is made of such fields, so decode is total; and the decode of a response word by the opcode it answers. -/
def Obligations.DecodeFollowsItsFunction : Prop :=
  (∀ (e : Bool) (seed : Word),
    decode (cwMake 0#2 e seed) = .init seed ∧
    decode (cwMake 1#2 e seed) = .add (!e) ∧
    decode (cwMake 2#2 e seed) = .finalize ∧
    decode (cwMake 3#2 e seed) = .hashOnce seed (!e)) ∧
  (∀ w : CmdWord, w = cwMake (w.extractLsb' 33 2) (w.getLsbD 32) (w.extractLsb' 0 32)) ∧
  ∀ (op : BitVec 2) (w : RspWord),
    (w.getLsbD 32 = true → decodeResponse op w = .errInvalidState) ∧
    (w.getLsbD 32 = false → (op = 0#2 ∨ op = 1#2) → decodeResponse op w = .ok) ∧
    (w.getLsbD 32 = false → (op = 2#2 ∨ op = 3#2) → decodeResponse op w = .okHash (w.extractLsb' 0 32))

/-- Words written out from R63 and R66 (vectors V-ENC of 95_test_vectors.md) decode to what they stand for. -/
def Obligations.DecodeOfWrittenWords : Prop :=
  decode 0x100000005#35 = .init 5#32 ∧ decode 0x2FFFFFFFF#35 = .add true ∧ decode 0x3DEADBEEF#35 = .add false ∧
  decode 0x5FFFFFFFF#35 = .finalize ∧ decode 0x700000001#35 = .hashOnce 1#32 false ∧
  decode 0x69747B28C#35 = .hashOnce 0x9747B28C#32 true

/-- R68: a beat carries `cnt + 1` bytes, lane `j` as byte `j`; the lanes above are ignored; and a full beat's data
field is the word MemRead assembles from its bytes. -/
def Obligations.BeatCarriesItsLowLanes : Prop :=
  ∀ b : Beat,
    (beatBytes b).length = (b.extractLsb' 32 2).toNat + 1 ∧
    (∀ j, j ≤ (b.extractLsb' 32 2).toNat → memRead1 (beatBytes b) j = some (b.extractLsb' (8 * j) 8)) ∧
    (∀ b' : Beat, b'.extractLsb' 32 2 = b.extractLsb' 32 2 →
      (∀ j, j ≤ (b.extractLsb' 32 2).toNat → b'.extractLsb' (8 * j) 8 = b.extractLsb' (8 * j) 8) →
      beatBytes b' = beatBytes b) ∧
    (b.extractLsb' 32 2 = 3#2 → memRead4 (beatBytes b) 0 = some (b.extractLsb' 0 32))

/-- R69, R70: a payload is the bytes of the beats up to and including the first with `last = 1`, whatever follows and
however it is cut; its length lies between the number of beats and four times that; without such a beat there is none
(R177); ADD and HASH_ONCE with `e = 0` take exactly those beats, and every other command takes none and has the empty
payload. -/
def Obligations.PayloadAssembly : Prop :=
  (∀ (bs rest : List Beat), framed (bs.map beatLast) = true →
    take (bs ++ rest) = some ((bs.map beatBytes).flatten, bs.length)) ∧
  (∀ (D : List Beat) (P : List Byte) (n : Nat), take D = some (P, n) →
    framed ((D.take n).map beatLast) = true ∧ P = ((D.take n).map beatBytes).flatten ∧ n ≤ D.length ∧
    n ≤ P.length ∧ P.length ≤ 4 * n) ∧
  (∀ D : List Beat, take D = none ↔ ∀ b ∈ D, beatLast b = false) ∧
  (∀ (e : Bool) (seed : Word) (D : List Beat),
    nextCommand (cwMake 0#2 e seed) D = some (.init seed, D) ∧
    nextCommand (cwMake 2#2 e seed) D = some (.finalize, D) ∧
    nextCommand (cwMake 1#2 true seed) D = some (.add [], D) ∧
    nextCommand (cwMake 3#2 true seed) D = some (.hashOnce seed [], D)) ∧
  ∀ (seed : Word) (D : List Beat),
    (∀ P n, take D = some (P, n) →
      nextCommand (cwMake 1#2 false seed) D = some (.add P, D.drop n) ∧
      nextCommand (cwMake 3#2 false seed) D = some (.hashOnce seed P, D.drop n)) ∧
    (take D = none → nextCommand (cwMake 1#2 false seed) D = none ∧ nextCommand (cwMake 3#2 false seed) D = none)

/-- R43: a four-byte read is little-endian at any index, aligned or not: byte `j` of the payload from there is byte
`j` of the word; and the rule's example. -/
def Obligations.WordReadsAreLittleEndian : Prop :=
  (∀ (A B : List Byte) (b0 b1 b2 b3 : Byte), ∃ w,
    memRead4 (A ++ b0 :: b1 :: b2 :: b3 :: B) A.length = some w ∧
    w.toNat = b0.toNat + b1.toNat * 2 ^ 8 + b2.toNat * 2 ^ 16 + b3.toNat * 2 ^ 24 ∧
    w.extractLsb' 0 8 = b0 ∧ w.extractLsb' 8 8 = b1 ∧ w.extractLsb' 16 8 = b2 ∧ w.extractLsb' 24 8 = b3) ∧
  memRead4 [0x74#8, 0x65#8, 0x73#8, 0x74#8] 0 = some 0x74736574#32

/-- R71: the canonical beats of a payload are one framed payload, carry exactly its bytes, are `ceil(n / 4)` many,
full but for the last, whose `cnt` is `(n - 1) mod 4`; and the rule's example. -/
def Obligations.CanonicalBeatsCarryThePayload : Prop :=
  (∀ P : List Byte, P ≠ [] →
    framed ((canonicalBeats P).map beatLast) = true ∧
    ((canonicalBeats P).map beatBytes).flatten = P ∧
    (canonicalBeats P).length = (P.length + 3) / 4 ∧
    (∀ b ∈ (canonicalBeats P).dropLast, beatCnt b = 3#2) ∧
    ((canonicalBeats P).getLast?.map (fun b => (beatCnt b).toNat)) = some ((P.length - 1) % 4) ∧
    ∀ t j b, (canonicalBeats P)[t]? = some b → j < 4 → P.length ≤ 4 * t + j → beatLane b j = 0#8) ∧
  canonicalBeats [0x74#8, 0x65#8, 0x73#8, 0x74#8, 0x31#8] = [0x374736574#35, 0x400000031#35]

/-- R72, R76, R134: the wire form of the responses, and that the host reads every response of every command back from
its word by the opcode of the command it answers. -/
def Obligations.ResponsesReadBackFromTheWire : Prop :=
  encodeResponse .ok = 0x000000000#33 ∧ encodeResponse .errInvalidState = 0x100000000#33 ∧
  (∀ h : Word, encodeResponse (.okHash h) = h.setWidth 33) ∧ encodeResponse (.okHash 0#32) = encodeResponse .ok ∧
  ∀ (c : Command) (r : Regs),
    decodeResponse (opcode (instrOf c)) (encodeResponse (execCommand c r).2) = (execCommand c r).2

/-! ### The mixer and the finishing step -/

/-- R90: the definition of MIX and its example. -/
def Obligations.MixFollowsItsDefinition : Prop :=
  (∀ h k : Word,
    mix h k = (0x5BD1E995#32 * h) ^^^
      (0x5BD1E995#32 * (0x5BD1E995#32 * k ^^^ (0x5BD1E995#32 * k) >>> 24))) ∧
  mix 0#32 0x74736574#32 = 0x220D3E62#32

/-- The corner cases of R93, but for its remark that a zero chunk changes every hash but 0, which its own (f)
contradicts: a zero chunk leaves exactly the hashes whose low 30 bits are 0 as they are. -/
def Obligations.MixCornerCases : Prop :=
  mix 0#32 0#32 = 0#32 ∧
  (∀ h, mix h 0#32 = Config.M * h) ∧
  (∀ h, mix h 0#32 = h ↔ h.extractLsb' 0 30 = 0#30) ∧
  (∀ k, mix 0#32 k = mixChunk k) ∧
  (∀ h k, mix h k = mix h 0#32 ^^^ mix 0#32 k) ∧
  Function.Bijective (fun x : Word => Config.M * x) ∧
  Function.Bijective (fun x : Word => x ^^^ (x >>> 24)) ∧
  (∀ k, Function.Bijective (fun h => mix h k)) ∧
  (∀ h, Function.Bijective (fun k => mix h k)) ∧
  mix 0x80000000#32 0#32 = 0x80000000#32 ∧ mix 0#32 0x80000000#32 = 0x68F4CA80#32 ∧
  mix 0xFFFFFFFF#32 0xFFFFFFFF#32 = 0x11BABB10#32

/-- R106: the finishing step, its three bijective stages, so that it is a bijection, and its example. -/
def Obligations.FinishingStepIsABijection : Prop :=
  (∀ h : Word,
    fmix h = (0x5BD1E995#32 * (h ^^^ h >>> 13)) ^^^ (0x5BD1E995#32 * (h ^^^ h >>> 13)) >>> 15) ∧
  fmix 0#32 = 0#32 ∧
  Function.Bijective (fun h : Word => h ^^^ (h >>> 13)) ∧
  Function.Bijective (fun h : Word => 0x5BD1E995#32 * h) ∧
  Function.Bijective (fun h : Word => h ^^^ (h >>> 15)) ∧
  Function.Bijective fmix ∧ fmix 0x99174785#32 = 0x3D31CCC8#32

/-! ### The hasher -/

/-- R101: one byte through the tail, with and without a mix; the shift loses no bit; under the tail invariant the OR
meets no nonzero bit, so exclusive or and addition give the same word; SIZE is untouched; and the rule's example. -/
def Obligations.TailStepAbsorbsOneByte : Prop :=
  (∀ z : Word, tailStep ⟨0#32, 0x00736574#32, 3#2, z⟩ 0x74#8 = ⟨0x220D3E62#32, 0#32, 0#2, z⟩) ∧
  ∀ (q : Quad) (b : Byte),
    (q.count = 3#2 → tailStep q b =
      { hash := mix q.hash (q.tail ||| b.setWidth 32 <<< 24), tail := 0#32, count := 0#2, size := q.size }) ∧
    (q.count ≠ 3#2 → tailStep q b =
      { q with tail := q.tail ||| b.setWidth 32 <<< (8 * q.count.toNat), count := q.count + 1#2 }) ∧
    (b.setWidth 32 <<< (8 * q.count.toNat) : Word).toNat = b.toNat * 2 ^ (8 * q.count.toNat) ∧
    (TailInv q →
      (q.tail ||| b.setWidth 32 <<< (8 * q.count.toNat)) = (q.tail ^^^ b.setWidth 32 <<< (8 * q.count.toNat)) ∧
      (q.tail ||| b.setWidth 32 <<< (8 * q.count.toNat)) = q.tail + b.setWidth 32 <<< (8 * q.count.toNat) ∧
      TailInv (tailStep q b))

/-- R103, R104, R105: what the phases of ADD consume and leave. The first FILL consumes `a` bytes by the four cases of
R105 (a) and mixes at most once, exactly when it completes a tail; every word step happens with COUNT = 0 and, under
the tail invariant, TAIL = 0; BULK leaves 0 to 3 bytes and touches neither TAIL nor COUNT; the second FILL never
mixes; and all bytes are consumed. -/
def Obligations.PhasesOfAddConsumeEverything : Prop :=
  ∀ (q : Quad) (P : List Byte),
    let c := q.count.toNat
    let n := P.length
    let a := if c = 0 then (if 4 ≤ n then 0 else n)
      else if n < 4 - c then n else if 4 ≤ n - (4 - c) then 4 - c else n
    let x := fill q P
    let y := bulk x.1 x.2
    x.2 = P.drop a ∧
    (x.2 = [] ∨ (x.1.count = 0#2 ∧ 4 ≤ x.2.length)) ∧
    (¬ (0 < c ∧ 4 - c ≤ n) → x.1.hash = q.hash) ∧
    (0 < c → 4 - c ≤ n → x.1.hash = mix q.hash (q.tail ||| packSum (P.take (4 - c)) <<< (8 * c))) ∧
    (TailInv q → x.2 ≠ [] → x.1.tail = 0#32) ∧
    y.2 = x.2.drop (4 * (x.2.length / 4)) ∧ y.2.length < 4 ∧ y.1.tail = x.1.tail ∧ y.1.count = x.1.count ∧
    (y.2 ≠ [] → y.1.count = 0#2) ∧
    (fill y.1 y.2).1.hash = y.1.hash ∧ (fill y.1 y.2).2 = []

/-- R107: a word step is four tail steps of its bytes, and absorbing a payload is absorbing its bytes one at a time,
with SIZE advanced by its length. -/
def Obligations.AbsorbIsByteSerial : Prop :=
  (∀ (q : Quad) (b0 b1 b2 b3 : Byte), q.count = 0#2 → q.tail = 0#32 →
    [b0, b1, b2, b3].foldl tailStep q = wordStep q (leWord b0 b1 b2 b3)) ∧
  ∀ (q : Quad) (P : List Byte), TailInv q →
    absorb q P = P.foldl tailStep { q with size := q.size + BitVec.ofNat 32 P.length }

/-- R108: the state an accepted ADD leaves, in closed form, and with it that the command completes whenever its payload
is there; SEED, FIN and everything else stay. -/
def Obligations.AddHasItsClosedForm : Prop :=
  ∀ (s : State) (hasBeats : Bool) (P : List Byte) (n : Nat),
    s.regs.fin = false → TailInv (quadOf s.regs) → PayloadReady hasBeats s P n →
    exec (.add hasBeats) s = .next
      { s with
        regs := { s.regs with
          hash := (fullWords (pendingBytes (quadOf s.regs) ++ P)).foldl mix s.regs.hash,
          tail := packSum (leftover (pendingBytes (quadOf s.regs) ++ P)),
          count := BitVec.ofNat 2 (s.regs.count.toNat + P.length),
          size := s.regs.size + BitVec.ofNat 32 P.length },
        beats := s.beats.drop n, k := s.k + n, rsp := some .ok }

/-- R112: ADD with FIN = 0 completes by running phases A to D and answers Ok; SEED and FIN are not written, nothing
else of the state changes but the beats taken. With FIN = 1 it raises InvalidState and changes no register. In every
state, the invariants not needed. Its encoding and the rule's example stand before. -/
def Obligations.AddFollowsItsRule : Prop :=
  (∀ (e : Bool) (seed : Word), decode (cwMake 1#2 e seed) = .add (!e)) ∧
  (∀ r : Regs, runCommands [.init 0#32, .add [0x74#8, 0x65#8, 0x73#8, 0x74#8]] r =
    ({ hash := 0x220D3E62#32, tail := 0#32, count := 0#2, size := 4#32, seed := 0#32, fin := false }, [.ok, .ok])) ∧
  ∀ (s : State) (hasBeats : Bool) (P : List Byte) (n : Nat), PayloadReady hasBeats s P n →
    let q : Quad :=
      { hash := s.regs.hash
        tail := s.regs.tail
        count := s.regs.count
        size := s.regs.size + BitVec.ofNat 32 P.length }
    let b := fill q P
    let c := bulk b.1 b.2
    let d := (fill c.1 c.2).1
    (s.regs.fin = false → exec (.add hasBeats) s = .next
      { s with
        regs := { s.regs with hash := d.hash, tail := d.tail, count := d.count, size := d.size },
        beats := s.beats.drop n, k := s.k + n, rsp := some .ok }) ∧
    (s.regs.fin = true → exec (.add hasBeats) s = .next
      { s with beats := s.beats.drop n, k := s.k + n, rsp := some .errInvalidState })

/-- R113 (a) to (f) as register values: the empty ADD changes nothing, a short payload only fills the tail, one that
completes the tail mixes once and clears it, after draining a remainder below four bytes is the new tail, and SIZE
wraps. -/
def Obligations.AddCornerCases : Prop :=
  ∀ (q : Quad) (P : List Byte), TailInv q →
    let c := q.count.toNat
    absorb q [] = q ∧
    (P.length < 4 - c →
      absorb q P = { hash := q.hash, tail := q.tail + packSum P <<< (8 * c), count := BitVec.ofNat 2 (c + P.length),
                     size := q.size + BitVec.ofNat 32 P.length }) ∧
    (0 < c → P.length = 4 - c →
      absorb q P = { hash := mix q.hash (q.tail + packSum P <<< (8 * c)), tail := 0#32, count := 0#2,
                     size := q.size + BitVec.ofNat 32 P.length }) ∧
    (0 < c → 4 - c ≤ P.length → P.length < 8 - c →
      absorb q P = { hash := mix q.hash (q.tail + packSum (P.take (4 - c)) <<< (8 * c)),
                     tail := packSum (P.drop (4 - c)), count := BitVec.ofNat 2 (P.length - (4 - c)),
                     size := q.size + BitVec.ofNat 32 P.length }) ∧
    (q.size = 0xFFFFFFFE#32 → P.length = 3 → (absorb q P).size = 0x00000001#32)

/-- R110, R111: INIT, with `e` ignored, completes in every state, the registers take the rule's values, everything else
stays but the response; and two INITs in a row are the second alone. -/
def Obligations.InitCompletesInEveryState : Prop :=
  (∀ (e : Bool) (seed : Word), decode (cwMake 0#2 e seed) = .init seed) ∧
  (∀ (seed : Word) (s : State),
    exec (.init seed) s = .next
      { s with
        regs := { hash := seed, tail := 0#32, count := 0#2, size := 0#32, seed := seed, fin := false },
        rsp := some .ok }) ∧
  ∀ (a b : Word) (r : Regs), (runCommands [.init a, .init b] r).1 = (runCommands [.init b] r).1

/-- R114: FINALIZE, `e` and `seed` ignored, with FIN = 0 completes: HASH takes the finished hash, which is also the answer, FIN becomes 1, and
TAIL, COUNT, SIZE, SEED and everything else stay. With FIN = 1 it raises InvalidState and changes nothing. And the
rule's example. -/
def Obligations.FinalizeFollowsItsRule : Prop :=
  (∀ (e : Bool) (seed : Word), decode (cwMake 2#2 e seed) = .finalize) ∧
  (∀ s : State,
    (s.regs.fin = false → exec .finalize s = .next
      { s with
        regs := { s.regs with hash := fmix (mix (mix s.regs.hash s.regs.tail) s.regs.size), fin := true },
        rsp := some (.okHash (fmix (mix (mix s.regs.hash s.regs.tail) s.regs.size))) }) ∧
    (s.regs.fin = true → exec .finalize s = .next { s with rsp := some .errInvalidState })) ∧
  fmix (mix (mix 0x220D3E62#32 0#32) 4#32) = 0x3D31CCC8#32

/-- The corner cases of R115, less its remark on when an empty tail changes HASH (see MixCornerCases): the tail is
mixed even when it is empty; FINALIZE straight after INIT; COUNT is no input; `[00]` and `[]` differ; a second FINALIZE
fails and keeps HASH; FINALIZE after reset fails. -/
def Obligations.FinalizeCornerCases : Prop :=
  (∀ r : Regs, r.fin = false → TailInv (quadOf r) → r.count = 0#2 →
    (execCommand .finalize r).2 = .okHash (fmix (mix (Config.M * r.hash) r.size))) ∧
  (∀ (seed : Word) (r : Regs),
    (runCommands [.init seed, .finalize] r).2 = [.ok, .okHash (fmix (mix (mix seed 0#32) 0#32))]) ∧
  (∀ (r : Regs) (c : BitVec 2), (execCommand .finalize { r with count := c }).2 = (execCommand .finalize r).2) ∧
  (∀ r : Regs,
    (runCommands [.init 0#32, .add [0#8], .finalize] r).2 = [.ok, .ok, .okHash 0xB2408361#32] ∧
    (runCommands [.init 0#32, .add [], .finalize] r).2 = [.ok, .ok, .okHash 0#32]) ∧
  (∀ r : Regs, runCommands [.finalize, .finalize] r =
    ((execCommand .finalize r).1, [(execCommand .finalize r).2, .errInvalidState])) ∧
  execCommand .finalize resetRegs = (resetRegs, .errInvalidState)

/-! ### The error -/

/-- R151, R137: ADD raises InvalidState exactly when FIN = 1; then no register changes, its beats are taken and
dropped all the same, and the answer is the error. FIN = 1 holds after reset and after FINALIZE. -/
def Obligations.AddIsRejectedExactlyWhenFinalized : Prop :=
  State.reset.regs.fin = true ∧ (∀ s t : State, exec .finalize s = .next t → t.regs.fin = true) ∧
  ∀ (s : State) (hasBeats : Bool) (P : List Byte) (n : Nat), PayloadReady hasBeats s P n →
    (s.regs.fin = true →
      exec (.add hasBeats) s = .next
        { s with beats := s.beats.drop n, k := s.k + n, rsp := some .errInvalidState }) ∧
    ∀ t, exec (.add hasBeats) s = .next t → (t.rsp = some .errInvalidState ↔ s.regs.fin = true)

/-- R152: FINALIZE raises InvalidState exactly when FIN = 1; then nothing changes and no hash is returned; and a second
FINALIZE in a row fails, the first hash still in HASH. -/
def Obligations.FinalizeIsRejectedExactlyWhenFinalized : Prop :=
  (∀ r : Regs, r.fin = false → ∃ h,
    (runCommands [.finalize, .finalize] r).2 = [.okHash h, .errInvalidState] ∧
    (runCommands [.finalize, .finalize] r).1.hash = h) ∧
  ∀ s : State,
    (s.regs.fin = true → exec .finalize s = .next { s with rsp := some .errInvalidState }) ∧
    ∀ t, exec .finalize s = .next t → (t.rsp = some .errInvalidState ↔ s.regs.fin = true)

/-- R157, R156: the cause of the error is sticky and the error is not: with FIN = 1 any number of ADDs and FINALIZEs
each fail, with no register changed, and INIT is the way out. -/
def Obligations.ErrorsRepeatUntilInit : Prop :=
  ∀ (cs : List Command) (r : Regs), r.fin = true → (∀ c ∈ cs, canFail c = true) →
    runCommands cs r = (r, List.replicate cs.length .errInvalidState) ∧
    ∀ seed P, (runCommands (cs ++ [.init seed, .add P]) r).2 = List.replicate cs.length .errInvalidState ++ [.ok, .ok]

/-- R153: nothing but ADD and FINALIZE with FIN = 1 is ever answered by the error. -/
def Obligations.NothingElseRaisesAnything : Prop :=
  ∀ (c : Command) (r : Regs),
    (execCommand c r).2 = .errInvalidState ↔ (canFail c = true ∧ r.fin = true)

/-- R177, R136: a command stops exactly while its payload is not complete, by the name awaitingPayload; otherwise it
answers a next state; nothing is ever refused. R177 has the engine wait and U7 calls it stuck; that this is a fault, and
its name, are the model's choice (log entry 2). -/
def Obligations.OnlyAnUnfinishedPayloadStopsACommand : Prop :=
  ∀ (i : Instr) (s : State),
    (exec i s = .fault .awaitingPayload ↔ (needsBeats i = true ∧ ∀ b ∈ s.beats, beatLast b = false)) ∧
    ((∃ t, exec i s = .next t) ↔ (needsBeats i = false ∨ ∃ b ∈ s.beats, beatLast b = true)) ∧
    (∀ f, exec i s = .fault f → f = .awaitingPayload) ∧
    ∀ r, exec i s ≠ .refused r

/-- R36, R133: which command writes which register, as frames of `exec`, and that no command touches the command
channel, the transferred responses or the host's pins; beats move only off the front, with the index. -/
def Obligations.AccessTableFrames : Prop :=
  ∀ (i : Instr) (s t : State), exec i s = .next t →
    (t.cmds = s.cmds ∧ t.sent = s.sent ∧ t.rspReady = s.rspReady ∧ t.rst = s.rst ∧
      ∃ n, t.beats = s.beats.drop n ∧ t.k = s.k + n ∧ (needsBeats i = false → n = 0)) ∧
    (∀ hasBeats, i = .add hasBeats → t.regs.seed = s.regs.seed ∧ t.regs.fin = s.regs.fin ∧
      (s.regs.fin = true → t.regs = s.regs) ∧
      (s.regs.fin = false → ∀ P n, PayloadReady hasBeats s P n → s.regs.count.toNat + P.length < 4 →
        t.regs.hash = s.regs.hash)) ∧
    (i = .finalize → t.regs.tail = s.regs.tail ∧ t.regs.count = s.regs.count ∧ t.regs.size = s.regs.size ∧
      t.regs.seed = s.regs.seed ∧ t.regs.fin = true ∧ (s.regs.fin = true → t.regs = s.regs)) ∧
    (∀ seed hasBeats, i = .hashOnce seed hasBeats → t.regs = s.regs)

/-- R35: once FIN = 1, a step that is no reset changes a register only when it executes INIT; ADD and FINALIZE raise
InvalidState and write nothing; and HASH_ONCE writes no register in any state. -/
def Obligations.OnlyInitLeavesFinalized : Prop :=
  (∀ (c : Command) (r : Regs), r.fin = true → canFail c = true → execCommand c r = (r, .errInvalidState)) ∧
  (∀ (seed : Word) (P : List Byte) (r : Regs), (execCommand (.hashOnce seed P) r).1 = r) ∧
  ∀ s t : State, s.rst = false → s.regs.fin = true → step s = .next t → t.regs ≠ s.regs →
    ∃ w ws seed, s.cmds = w :: ws ∧ decode w = .init seed ∧ t.regs.fin = false

/-- R116, R136: the lifecycle table, every row and column, with the registers and the response after each command as
the total function of R136 gives them; and reset. -/
def Obligations.LifecycleTable : Prop :=
  ∀ (r : Regs),
    (∀ seed, execCommand (.init seed) r =
      ({ hash := seed, tail := 0#32, count := 0#2, size := 0#32, seed := seed, fin := false }, .ok)) ∧
    (∀ P, r.fin = false →
      let q := absorb { hash := r.hash, tail := r.tail, count := r.count, size := r.size } P
      execCommand (.add P) r =
        ({ hash := q.hash, tail := q.tail, count := q.count, size := q.size, seed := r.seed, fin := false }, .ok)) ∧
    (∀ P, r.fin = true → execCommand (.add P) r = (r, .errInvalidState)) ∧
    (r.fin = false →
      let h := fmix (mix (mix r.hash r.tail) r.size)
      execCommand .finalize r =
        ({ hash := h, tail := r.tail, count := r.count, size := r.size, seed := r.seed, fin := true }, .okHash h)) ∧
    (r.fin = true → execCommand .finalize r = (r, .errInvalidState)) ∧
    (∀ seed P,
      let q := absorb { hash := seed, tail := 0#32, count := 0#2, size := 0#32 } P
      execCommand (.hashOnce seed P) r = (r, .okHash (fmix (mix (mix q.hash q.tail) q.size)))) ∧
    (∀ s : State, s.rst = true → ∃ t, step s = .next t ∧ t.regs.fin = true ∧ t.rsp = none ∧ t.sent = [])

/-! ### HASH_ONCE and the properties of the whole -/

/-- R141, R132, R133: HASH_ONCE completes in every lifecycle state as soon as its payload is there, answers the closed
formula of the hash, and changes no register and nothing else but the beats taken. -/
def Obligations.HashOnceAnswersTheClosedFormula : Prop :=
  ∀ (s : State) (seed : Word) (hasBeats : Bool) (P : List Byte) (n : Nat), PayloadReady hasBeats s P n →
    exec (.hashOnce seed hasBeats) s = .next
      { s with beats := s.beats.drop n, k := s.k + n, rsp := some (.okHash (hash32 seed P)) }

/-- R133, R138: HASH_ONCE commands can be taken out of any sequence without a change to the registers or to the
response of any other command; HASH_ONCE is accepted in every lifecycle state, and its own response depends on its
operands alone. -/
def Obligations.HashOnceLeavesTheContextAlone : Prop :=
  (∀ (cs : List Command) (r : Regs),
    (runCommands (cs.filter (fun c => !isHashOnce c)) r).1 = (runCommands cs r).1 ∧
    (runCommands (cs.filter (fun c => !isHashOnce c)) r).2 =
      ((cs.zip (runCommands cs r).2).filter (fun x => !isHashOnce x.1)).map (fun x => x.2)) ∧
  ∀ (seed : Word) (P : List Byte), ∃ h, ∀ r : Regs, execCommand (.hashOnce seed P) r = (r, .okHash h)

/-- R139, chunk independence, "the core correctness contract": for every seed, every list of chunks (none, empty ones,
any sizes) and every state before, INIT, one ADD per chunk and FINALIZE answer with the hash HASH_ONCE answers for the
concatenation; and two ADDs compose to the ADD of the concatenation. -/
def Obligations.ChunkIndependence : Prop :=
  (∀ (seed : Word) (chunks : List (List Byte)) (r r' : Regs),
    ∃ h, (runCommands (.init seed :: (chunks.map Command.add ++ [.finalize])) r).2 =
        .ok :: (List.replicate chunks.length .ok ++ [.okHash h]) ∧
      (execCommand (.hashOnce seed chunks.flatten) r').2 = .okHash h) ∧
  ∀ (q : Quad) (c1 c2 : List Byte), TailInv q → absorb (absorb q c1) c2 = absorb q (c1 ++ c2)

/-- R140, R78: `HASHCTX seed, bytes` answers with the hash of `HASH_ONCE seed, bytes` as its third response, but
overwrites the context, which HASH_ONCE leaves alone. -/
def Obligations.OneShotEqualsIncremental : Prop :=
  ∀ (seed : Word) (b : List Byte) (r r' : Regs),
    ∃ h, (runCommands (hashctx seed b) r).2 = [.ok, .ok, .okHash h] ∧
      (runCommands (hashctx seed b) r).1.hash = h ∧ (runCommands (hashctx seed b) r).1.seed = seed ∧
      (runCommands (hashctx seed b) r).1.fin = true ∧
      execCommand (.hashOnce seed b) r' = (r', .okHash h)

/-- R142: for a fixed input the hash is a bijection of the seed, so two different seeds never give the same response;
with the witness of the rule. -/
def Obligations.DifferentSeedsDifferentHashes : Prop :=
  (∀ b : List Byte, Function.Bijective (fun seed => hash32 seed b)) ∧
  (∀ (b : List Byte) (s1 s2 : Word) (r : Regs), s1 ≠ s2 →
    (execCommand (.hashOnce s1 b) r).2 ≠ (execCommand (.hashOnce s2 b) r).2) ∧
  hash32 0#32 [0#8] = 0xB2408361#32 ∧ hash32 1#32 [0#8] = 0x1964CDCA#32

/-! ### The command loop -/

/-- R131: when no reset and no response is outstanding, a step takes the word at the head of the command channel, runs
`exec` of its decoding on the rest. That the response is transferred in the same step when the host is ready, and else
stays offered, is the model's choice (log entry 6), and so is that a wait for a payload is a fault (log entry 2). -/
def Obligations.StepRunsTheDecodedCommand : Prop :=
  ∀ (s : State) (w : CmdWord) (ws : List CmdWord), s.rst = false → s.rsp = none → s.cmds = w :: ws →
    (decode w).wellFormed = true ∧
    (∀ t, exec (decode w) { s with cmds := ws } = .next t → s.rspReady = true →
      ∃ r, t.rsp = some r ∧ step s = .next { t with rsp := none, sent := t.sent ++ [r] }) ∧
    (∀ t, exec (decode w) { s with cmds := ws } = .next t → s.rspReady = false → step s = .next t) ∧
    ∀ f, exec (decode w) { s with cmds := ws } = .fault f → step s = .fault f

/-- R178, R131: a response that is offered holds the engine: while the host is not ready there is no step, and when it
is, the next step transfers exactly that response and nothing else changes. With no command word the engine waits. That
waiting is a stop of its own name is the model's choice (log entry 2), and that an offered response is transferred by a
step of its own is too (log entry 6). -/
def Obligations.EngineWaitsForItsHost : Prop :=
  ∀ s : State, s.rst = false →
    (s.rsp = none → s.cmds = [] → step s = .fault .awaitingCommand) ∧
    ∀ r, s.rsp = some r →
      (s.rspReady = false → step s = .fault .awaitingResponse) ∧
      (s.rspReady = true → step s = .next { s with rsp := none, sent := s.sent ++ [r] })

/-- R134, R135, R136: a command step is one whole transaction: it takes exactly one command word and that command's
beats, the registers and the response are those of R136, and exactly one response joins those transferred or offered,
behind all earlier ones. That no response is outstanding after the step exactly when the host was ready is the model's
choice (log entry 6). -/
def Obligations.StepIsOneTransaction : Prop :=
  ∀ s t : State, s.rst = false → s.rsp = none → step s = .next t →
    ∃ w c, s.cmds = w :: t.cmds ∧ nextCommand w s.beats = some (c, t.beats) ∧
      t.regs = (execCommand c s.regs).1 ∧
      t.sent ++ t.rsp.toList = s.sent ++ [(execCommand c s.regs).2] ∧
      (t.rsp = none ↔ s.rspReady = true) ∧
      t.k + t.beats.length = s.k + s.beats.length ∧ t.rspReady = s.rspReady ∧ t.rst = false

/-- R131, R134, R136: the machine refines the total function: whenever the words and beats on the channels read as the
commands `cs`, and the host takes its responses, as many steps as there are commands end with the registers and the
responses of R136 applied in order, the words gone and the further beats left. That one step per command is enough, the
response transferred within it, is the model's choice (log entry 6), and so is the reading of quiescent that also asks
for no word offered (log entry 18). -/
def Obligations.RunsRefineTheTotalFunction : Prop :=
  ∀ (s : State) (cs : List Command) (rest : List Beat),
    s.rst = false → s.rsp = none → s.rspReady = true → assemble s.cmds s.beats = some (cs, rest) →
    ∃ t, core.run s.cmds.length s = .next t ∧
      t.regs = (runCommands cs s.regs).1 ∧ t.sent = s.sent ++ (runCommands cs s.regs).2 ∧
      t.beats = rest ∧ t.k + rest.length = s.k + s.beats.length ∧ Quiescent t ∧
      t.rspReady = true ∧ t.rst = false

/-! ### Inside a command, and at the pins -/

/-- R118, R121: the micro-phases end in IDLE with the registers and the response of the atomic transition, for INIT,
ADD and FINALIZE; and HASH_ONCE is the phases of ADD and then of FINALIZE on scratch registers (R132). -/
def Obligations.MicroPhasesRefineTheCommands : Prop :=
  (∀ (c : Command) (r : Regs), isHashOnce c = false →
    ∃ n, (phaseRun n (phaseStart r c)).ph = .idle ∧
      (phaseRun n (phaseStart r c)).regs = (execCommand c r).1 ∧
      (phaseRun n (phaseStart r c)).out = some (execCommand c r).2) ∧
  ∀ (seed : Word) (P : List Byte) (r : Regs),
    ∃ m n, let f := phaseRun m (phaseStart (scratchRegs seed) (.add P))
      f.ph = .idle ∧ (phaseRun n (phaseStart f.regs .finalize)).ph = .idle ∧
      (phaseRun n (phaseStart f.regs .finalize)).out = some (execCommand (.hashOnce seed P) r).2

/-- R131, R61, R134 at the pins: for every host behaviour without reset and every timing, whenever the engine is
waiting for a command again, the transferred words and beats read as commands with no beat left over, the transferred
responses are theirs in order, and the registers are those of R136. -/
def Obligations.PinRunsRefineTheTotalFunction : Prop :=
  ∀ (es : List (PinsIn × Timing)) (r : Regs) (k : Nat),
    (∀ x ∈ es, x.1.rst = false) →
    (edges es { regs := r, loop := .idle, k := k }).1.loop = .idle →
    ∃ cs, let x := (edges es { regs := r, loop := .idle, k := k }).2
      assemble x.cmds x.beats = some (cs, []) ∧
      x.rsps = (runCommands cs r).2.map encodeResponse ∧
      (edges es { regs := r, loop := .idle, k := k }).1 =
        { regs := (runCommands cs r).1, loop := .idle, k := k + x.beats.length }

/-- R181, R61: nothing depends on clock cycles: two runs from the same idle engine that transfer the same command words
and the same beats, each in its own timing, and are idle again, have transferred the same responses and left the same
registers. -/
def Obligations.NothingDependsOnTiming : Prop :=
  ∀ (es es' : List (PinsIn × Timing)) (e : PinEngine), e.loop = .idle →
    (∀ x ∈ es, x.1.rst = false) → (∀ x ∈ es', x.1.rst = false) →
    (edges es e).1.loop = .idle → (edges es' e).1.loop = .idle →
    (edges es e).2.cmds = (edges es' e).2.cmds → (edges es e).2.beats = (edges es' e).2.beats →
    (edges es e).2.rsps = (edges es' e).2.rsps ∧ (edges es e).1 = (edges es' e).1

/-- R170, R171 at the pins: an edge with `rst = 1` transfers nothing, shows all channels idle and leaves the reset
engine, whatever the engine was doing; a run after it does not depend on what was before. -/
def Obligations.PinResetAbandonsEverything : Prop :=
  ∀ (e : PinEngine) (p : PinsIn) (t : Timing), p.rst = true →
    edge e p t = { regs := { hash := 0#32, tail := 0#32, count := 0#2, size := 0#32, seed := 0#32, fin := true },
                   loop := .idle, k := 0 } ∧
    edgeXfers e p t = { cmds := [], beats := [], rsps := [] } ∧
    pinsOut e p t = { cmdReady := false, datReady := false, rspWord := none } ∧
    ∀ (es : List (PinsIn × Timing)) (e' : PinEngine), edges ((p, t) :: es) e = edges ((p, t) :: es) e'

/-- R135, R178, R180 at the pins, edge by edge without reset: `cmd_ready` is high and a command word is taken only
between commands; `dat_ready` is high and a beat is taken only while a payload is collected; a response word is shown
exactly while that response is offered, it stays, word for word, until the host takes it, and nothing is taken
meanwhile; and a response comes to be offered only at the end of a command, as the answer of the total function, with
the registers of the total function (R119: "the state when the response is produced"). The last clause, that the
registers change at no other edge, is the model's choice: R119 and U3 leave them unspecified inside a command (log
entry 17; log entry 13 for the end of executing as an edge of its own). -/
def Obligations.ChannelsTakeTurns : Prop :=
  ∀ (e : PinEngine) (p : PinsIn) (t : Timing), p.rst = false →
    ((pinsOut e p t).cmdReady = true → e.loop = .idle) ∧
    ((pinsOut e p t).datReady = true → ∃ i P, e.loop = .collecting i P) ∧
    (∀ v, (pinsOut e p t).rspWord = some v ↔ ∃ r, e.loop = .offering r ∧ v = encodeResponse r) ∧
    (xferCommand e p t ≠ none → e.loop = .idle) ∧
    (xferBeat e p t ≠ none → ∃ i P, e.loop = .collecting i P) ∧
    (∀ r, e.loop = .offering r →
      (pinsOut e p t).rspWord = some (encodeResponse r) ∧ xferCommand e p t = none ∧ xferBeat e p t = none ∧
      (p.rspReady = false → edge e p t = e) ∧ (p.rspReady = true → edge e p t = { e with loop := .idle })) ∧
    (∀ r, (edge e p t).loop = .offering r → edge e p t = e ∨
      ∃ c, e.loop = .executing c ∧ r = (execCommand c e.regs).2 ∧
        edge e p t = { e with regs := (execCommand c e.regs).1, loop := .offering r }) ∧
    ((edge e p t).regs ≠ e.regs → ∃ c, e.loop = .executing c ∧
      (edge e p t) = { e with regs := (execCommand c e.regs).1, loop := .offering (execCommand c e.regs).2 })

/-- R182: a host that meets its duties gets its answers. In every endless run from an idle engine whose host is dutiful
and whose engine makes progress, each at whatever pace and in whatever interleaving, there is an edge by which exactly
the host's words and beats have been transferred, every command has its response, in order, the registers are those of
the total function and the engine is idle. And once a command executes, however long the engine takes and however long
the host lets the response wait, the answer and the registers are those of R136. That the engine's pace is an argument
of each edge, and that executing ends at an edge of its own, are the model's choices (log entry 13). -/
def Obligations.EveryTransactionIsAnswered : Prop :=
  (∀ (e : PinEngine) (c : Command) (busy wait : List (PinsIn × Timing)) (p q : PinsIn) (t u : Timing),
    e.loop = .executing c →
    (∀ x ∈ busy, x.1.rst = false ∧ x.2.done = false) → p.rst = false → t.done = true →
    (∀ x ∈ wait, x.1.rst = false ∧ x.1.rspReady = false) → q.rst = false → q.rspReady = true →
    edges (busy ++ (p, t) :: (wait ++ [(q, u)])) e =
      ({ regs := (execCommand c e.regs).1, loop := .idle, k := e.k },
       { cmds := [], beats := [], rsps := [encodeResponse (execCommand c e.regs).2] })) ∧
  ∀ (ws : List CmdWord) (D : List Beat) (cs : List Command) (es : Nat → PinsIn × Timing) (r : Regs) (k : Nat),
    assemble ws D = some (cs, []) →
    Dutiful es { regs := r, loop := .idle, k := k } ws D → MakesProgress es →
    ∃ n, edgesTo es n { regs := r, loop := .idle, k := k } =
      ({ regs := (runCommands cs r).1, loop := .idle, k := k + D.length },
       { cmds := ws, beats := D, rsps := (runCommands cs r).2.map encodeResponse })

/-- R143: a step of one engine of a system leaves every other engine as it was and is the step that engine would take
alone. -/
def Obligations.EnginesShareNothing : Prop :=
  ∀ (n m : Nat) (sys sys' : List State), stepEngine n sys = some sys' →
    sys'.length = sys.length ∧ (m ≠ n → sys'[m]? = sys[m]?) ∧
    ∃ s t, sys[n]? = some s ∧ step s = .next t ∧ sys'[n]? = some t
end

