-- ==== Sys2Proof/Laws/State.lean ====
section
/-! SUPPORT. One lemma per field per update of the records, all by rfl, so that no later proof unfolds an update. -/

namespace Sys2Proof.Machine

/-! ### Regs -/

@[simp] theorem setQuad_hash (r : Regs) (q : Quad) : (setQuad r q).hash = q.hash := rfl
@[simp] theorem setQuad_tail (r : Regs) (q : Quad) : (setQuad r q).tail = q.tail := rfl
@[simp] theorem setQuad_count (r : Regs) (q : Quad) : (setQuad r q).count = q.count := rfl
@[simp] theorem setQuad_size (r : Regs) (q : Quad) : (setQuad r q).size = q.size := rfl
@[simp] theorem setQuad_seed (r : Regs) (q : Quad) : (setQuad r q).seed = r.seed := rfl
@[simp] theorem setQuad_fin (r : Regs) (q : Quad) : (setQuad r q).fin = r.fin := rfl
@[simp] theorem quadOf_setQuad (r : Regs) (q : Quad) : quadOf (setQuad r q) = q := rfl
@[simp] theorem setQuad_quadOf (r : Regs) : setQuad r (quadOf r) = r := rfl
@[simp] theorem setQuad_setQuad (r : Regs) (p q : Quad) : setQuad (setQuad r p) q = setQuad r q := rfl

@[simp] theorem quadOf_hash (r : Regs) : (quadOf r).hash = r.hash := rfl
@[simp] theorem quadOf_tail (r : Regs) : (quadOf r).tail = r.tail := rfl
@[simp] theorem quadOf_count (r : Regs) : (quadOf r).count = r.count := rfl
@[simp] theorem quadOf_size (r : Regs) : (quadOf r).size = r.size := rfl

@[simp] theorem setActive_hash (r : Regs) : (setActive r).hash = r.hash := rfl
@[simp] theorem setActive_tail (r : Regs) : (setActive r).tail = r.tail := rfl
@[simp] theorem setActive_count (r : Regs) : (setActive r).count = r.count := rfl
@[simp] theorem setActive_size (r : Regs) : (setActive r).size = r.size := rfl
@[simp] theorem setActive_seed (r : Regs) : (setActive r).seed = r.seed := rfl
@[simp] theorem setActive_fin (r : Regs) : (setActive r).fin = false := rfl

@[simp] theorem setFinalized_hash (r : Regs) : (setFinalized r).hash = r.hash := rfl
@[simp] theorem setFinalized_tail (r : Regs) : (setFinalized r).tail = r.tail := rfl
@[simp] theorem setFinalized_count (r : Regs) : (setFinalized r).count = r.count := rfl
@[simp] theorem setFinalized_size (r : Regs) : (setFinalized r).size = r.size := rfl
@[simp] theorem setFinalized_seed (r : Regs) : (setFinalized r).seed = r.seed := rfl
@[simp] theorem setFinalized_fin (r : Regs) : (setFinalized r).fin = true := rfl

/-! ### Quad -/

@[simp] theorem addSize_hash (q : Quad) (n : Nat) : (addSize q n).hash = q.hash := rfl
@[simp] theorem addSize_tail (q : Quad) (n : Nat) : (addSize q n).tail = q.tail := rfl
@[simp] theorem addSize_count (q : Quad) (n : Nat) : (addSize q n).count = q.count := rfl
@[simp] theorem addSize_size (q : Quad) (n : Nat) : (addSize q n).size = q.size + BitVec.ofNat 32 n := rfl

@[simp] theorem wordStep_hash (q : Quad) (w : Word) : (wordStep q w).hash = mix q.hash w := rfl
@[simp] theorem wordStep_tail (q : Quad) (w : Word) : (wordStep q w).tail = q.tail := rfl
@[simp] theorem wordStep_count (q : Quad) (w : Word) : (wordStep q w).count = q.count := rfl
@[simp] theorem wordStep_size (q : Quad) (w : Word) : (wordStep q w).size = q.size := rfl

/-! ### State -/

@[simp] theorem takeBeats_regs (n : Nat) (s : State) : (takeBeats n s).regs = s.regs := rfl
@[simp] theorem takeBeats_cmds (n : Nat) (s : State) : (takeBeats n s).cmds = s.cmds := rfl
@[simp] theorem takeBeats_beats (n : Nat) (s : State) : (takeBeats n s).beats = s.beats.drop n := rfl
@[simp] theorem takeBeats_k (n : Nat) (s : State) : (takeBeats n s).k = s.k + n := rfl
@[simp] theorem takeBeats_rsp (n : Nat) (s : State) : (takeBeats n s).rsp = s.rsp := rfl
@[simp] theorem takeBeats_sent (n : Nat) (s : State) : (takeBeats n s).sent = s.sent := rfl
@[simp] theorem takeBeats_rspReady (n : Nat) (s : State) : (takeBeats n s).rspReady = s.rspReady := rfl
@[simp] theorem takeBeats_rst (n : Nat) (s : State) : (takeBeats n s).rst = s.rst := rfl

/-- The empty payload takes no beat. -/
@[simp] theorem takeBeats_zero (s : State) : takeBeats 0 s = s := rfl

@[simp] theorem answer_regs (x : Regs × Response) (s : State) : (answer x s).regs = x.1 := rfl
@[simp] theorem answer_cmds (x : Regs × Response) (s : State) : (answer x s).cmds = s.cmds := rfl
@[simp] theorem answer_beats (x : Regs × Response) (s : State) : (answer x s).beats = s.beats := rfl
@[simp] theorem answer_k (x : Regs × Response) (s : State) : (answer x s).k = s.k := rfl
@[simp] theorem answer_rsp (x : Regs × Response) (s : State) : (answer x s).rsp = some x.2 := rfl
@[simp] theorem answer_sent (x : Regs × Response) (s : State) : (answer x s).sent = s.sent := rfl
@[simp] theorem answer_rspReady (x : Regs × Response) (s : State) : (answer x s).rspReady = s.rspReady := rfl
@[simp] theorem answer_rst (x : Regs × Response) (s : State) : (answer x s).rst = s.rst := rfl

@[simp] theorem popCommand_regs (s : State) : (popCommand s).regs = s.regs := rfl
@[simp] theorem popCommand_cmds (s : State) : (popCommand s).cmds = s.cmds.tail := rfl
@[simp] theorem popCommand_beats (s : State) : (popCommand s).beats = s.beats := rfl
@[simp] theorem popCommand_k (s : State) : (popCommand s).k = s.k := rfl
@[simp] theorem popCommand_rsp (s : State) : (popCommand s).rsp = s.rsp := rfl
@[simp] theorem popCommand_sent (s : State) : (popCommand s).sent = s.sent := rfl
@[simp] theorem popCommand_rspReady (s : State) : (popCommand s).rspReady = s.rspReady := rfl
@[simp] theorem popCommand_rst (s : State) : (popCommand s).rst = s.rst := rfl

@[simp] theorem resetEngine_regs (s : State) : (resetEngine s).regs = resetRegs := rfl
@[simp] theorem resetEngine_cmds (s : State) : (resetEngine s).cmds = [] := rfl
@[simp] theorem resetEngine_beats (s : State) : (resetEngine s).beats = [] := rfl
@[simp] theorem resetEngine_k (s : State) : (resetEngine s).k = 0 := rfl
@[simp] theorem resetEngine_rsp (s : State) : (resetEngine s).rsp = none := rfl
@[simp] theorem resetEngine_sent (s : State) : (resetEngine s).sent = [] := rfl
@[simp] theorem resetEngine_rspReady (s : State) : (resetEngine s).rspReady = s.rspReady := rfl
@[simp] theorem resetEngine_rst (s : State) : (resetEngine s).rst = false := rfl

end Sys2Proof.Machine
end

