-- ==== Sys2Proof/Laws/Ops.lean ====
section
/-! SUPPORT. One specification lemma per shared operation, so that later proofs cite it and do not unfold the
operation: the byte and word operations, FILL, BULK, the payload operand, the commands on the registers, `exec`, `step`,
the host's actions and runs of clock edges. -/

namespace Sys2Proof.Laws

open Sys2Proof.Machine

/-! ### The words of a command -/

theorem cwOp_make (op e seed) : cwOp (cwMake op e seed) = op := by
  apply BitVec.eq_of_getLsbD_eq; intro i hi
  simp only [cwOp, cwMake, BitVec.getLsbD_extractLsb', BitVec.getLsbD_append]
  have : ¬ (33 + i < 1 + 32) := by omega
  simp [hi]

theorem cwE_make (op e seed) : cwE (cwMake op e seed) = e := by
  simp only [cwE, cwMake, BitVec.getLsbD_append]
  simp

theorem cwSeed_make (op e seed) : cwSeed (cwMake op e seed) = seed := by
  apply BitVec.eq_of_getLsbD_eq; intro i hi
  simp only [cwSeed, cwMake, BitVec.getLsbD_extractLsb', BitVec.getLsbD_append]
  have h1 : i < 1 + 32 := by omega
  simp [hi, h1]

/-- Decode of a word given by its fields (R76). -/
theorem decode_cwMake (op e seed) : decode (cwMake op e seed) =
   if op = 0#2 then .init seed else if op = 1#2 then .add (!e) else if op = 2#2 then .finalize else .hashOnce seed (!e) := by
  simp only [decode, cwOp_make, cwE_make, cwSeed_make]

/-! ### One byte through the tail -/

theorem count_cases (c : BitVec 2) : c = 0#2 ∨ c = 1#2 ∨ c = 2#2 ∨ c = 3#2 := by
  revert c; decide

/-- The tail invariant as a bound (R27). -/
theorem tailInv_iff (q : Quad) : TailInv q ↔ q.tail.toNat < 2 ^ (8 * q.count.toNat) := by
  unfold TailInv
  rw [← BitVec.toNat_inj]
  simp only [BitVec.toNat_ushiftRight, Nat.shiftRight_eq_div_pow, BitVec.toNat_ofNat, Nat.zero_mod]
  rw [Nat.div_eq_zero_iff]
  have : 2 ^ (8 * q.count.toNat) ≠ 0 := by positivity
  tauto

theorem zext_shift_toNat (b : Byte) (c : Nat) (h : c ≤ 3) :
    (zext32 b <<< (8 * c)).toNat = b.toNat * 2 ^ (8 * c) := by
  unfold zext32
  rw [BitVec.toNat_shiftLeft, BitVec.toNat_setWidth, Nat.shiftLeft_eq]
  have hb := b.isLt
  rw [Nat.mod_eq_of_lt (a := b.toNat) (by omega)]
  apply Nat.mod_eq_of_lt
  interval_cases c <;> omega

/-- Placing a byte above the pending ones is addition (R101). -/
theorem or_shift_toNat (t : Word) (b : Byte) (c : Nat) (h : c ≤ 3) (ht : t.toNat < 2 ^ (8 * c)) :
    (t ||| zext32 b <<< (8 * c)).toNat = t.toNat + b.toNat * 2 ^ (8 * c) := by
  rw [BitVec.toNat_or, zext_shift_toNat b c h, Nat.or_comm, Nat.mul_comm, ← Nat.two_pow_add_eq_or_of_lt ht]
  omega

/-- A little-endian word as a number (R43). -/
theorem leWord_toNat (a b c d : Byte) :
    (leWord a b c d).toNat = a.toNat + b.toNat * 2 ^ 8 + c.toNat * 2 ^ 16 + d.toNat * 2 ^ 24 := by
  have ha := a.isLt; have hb := b.isLt; have hc := c.isLt; have hd := d.isLt
  have z : (zext32 a).toNat = a.toNat := by
    unfold zext32; rw [BitVec.toNat_setWidth]; omega
  have h1 := or_shift_toNat (zext32 a) b 1 (by omega) (by rw [z]; omega)
  have h1' : (zext32 a ||| zext32 b <<< 8).toNat = _ := h1
  have h2 := or_shift_toNat (zext32 a ||| zext32 b <<< 8) c 2 (by omega) (by
    rw [h1', z]; omega)
  have h2 : (zext32 a ||| zext32 b <<< 8 ||| zext32 c <<< 16).toNat = _ := h2
  have h3 := or_shift_toNat (zext32 a ||| zext32 b <<< 8 ||| zext32 c <<< 16) d 3 (by omega) (by
    rw [h2, h1', z]; omega)
  unfold leWord
  simp only [Nat.reduceMul] at h1 h2 h3
  rw [h3, h2, h1, z]

/-- TAILSTEP below three pending bytes (R101). -/
theorem tailStep_of_not_three (q : Quad) (b : Byte) (h : q.count ≠ 3#2) : tailStep q b =
    { q with tail := q.tail ||| zext32 b <<< (8 * q.count.toNat), count := q.count + 1#2 } := by
  simp [tailStep, h]

/-- TAILSTEP on three pending bytes (R101). -/
theorem tailStep_of_three (q : Quad) (b : Byte) (h : q.count = 3#2) : tailStep q b =
    { q with hash := mix q.hash (q.tail ||| zext32 b <<< 24), tail := 0#32, count := 0#2 } := by
  simp [tailStep, h]

theorem tailStep_size (q : Quad) (b : Byte) : (tailStep q b).size = q.size := by
  simp only [tailStep]; split <;> rfl

theorem tailStep_addSize (q : Quad) (b : Byte) (n : Nat) : tailStep (addSize q n) b = addSize (tailStep q b) n := by
  unfold tailStep addSize; simp only; split <;> rfl

theorem foldl_addSize (P : List Byte) (n : Nat) : ∀ q, P.foldl tailStep (addSize q n) = addSize (P.foldl tailStep q) n := by
  induction P with
  | nil => intro q; rfl
  | cons b bs ih => intro q; simp only [List.foldl]; rw [tailStep_addSize, ih]

theorem addSize_add (q : Quad) (m n : Nat) : addSize (addSize q m) n = addSize q (m + n) := by
  simp [addSize, BitVec.ofNat_add, BitVec.add_assoc]

/-! ### FILL and BULK -/

/-- FILL is tail steps on a front part of the payload (R103). -/
theorem fill_foldl (q : Quad) (P : List Byte) : P.foldl tailStep q = (fill q P).2.foldl tailStep (fill q P).1 := by
  induction P generalizing q with
  | nil => simp [fill]
  | cons b bs ih =>
    simp only [fill]
    split
    · simpa using ih _
    · rfl

/-- What FILL leaves: nothing, or at least a word with no byte pending (R105). -/
theorem fill_post (q : Quad) (P : List Byte) : (fill q P).2 = [] ∨ ((fill q P).1.count = 0#2 ∧ 4 ≤ (fill q P).2.length) := by
  induction P generalizing q with
  | nil => simp [fill]
  | cons b bs ih =>
    simp only [fill]
    split
    · exact ih _
    · rename_i h; right; simp only [not_or, not_not, not_lt] at h; exact h

/-- FILL of less than a word consumes all of it (R103). -/
theorem fill_short (P : List Byte) : ∀ q, P.length < 4 → fill q P = (P.foldl tailStep q, []) := by
  induction P with
  | nil => intro q _; simp [fill]
  | cons b bs ih =>
    intro q h
    simp only [fill]
    rw [if_pos (Or.inr h), ih _ (by simp at h; omega)]
    simp

/-- What BULK changes and leaves (R104). -/
theorem bulk_frame : ∀ (P : List Byte) (q : Quad),
    (bulk q P).1.count = q.count ∧ (bulk q P).1.tail = q.tail ∧ (bulk q P).1.size = q.size ∧ (bulk q P).2.length < 4
  | b0 :: b1 :: b2 :: b3 :: bs, q => bulk_frame bs (wordStep q (leWord b0 b1 b2 b3))
  | [], q => by simp [bulk]
  | [_], q => by simp [bulk]
  | [_, _], q => by simp [bulk]
  | [_, _, _], q => by simp [bulk]

/-! ### The commands on the registers -/

theorem fin_cases (r : Regs) : r.fin = true ∨ r.fin = false := by cases r.fin <;> simp

theorem hasherAdd_finalized (P) (r : Regs) (h : r.fin = true) : hasherAdd P r = (r, .errInvalidState) := by
  simp [hasherAdd, isFinalized, h, raiseInvalidState]

theorem hasherAdd_active (P) (r : Regs) (h : r.fin = false) : hasherAdd P r = (setQuad r (absorb (quadOf r) P), .ok) := by
  simp [hasherAdd, isFinalized, h]

theorem hasherFinalize_finalized (r : Regs) (h : r.fin = true) : hasherFinalize r = (r, .errInvalidState) := by
  simp [hasherFinalize, isFinalized, h, raiseInvalidState]

theorem hasherFinalize_active (r : Regs) (h : r.fin = false) : hasherFinalize r =
   ({ r with hash := finish r.hash r.tail r.size, fin := true }, .okHash (finish r.hash r.tail r.size)) := by
  simp [hasherFinalize, isFinalized, h, setFinalized]

theorem runCommands_append (a b : List Command) : ∀ r, runCommands (a ++ b) r =
    ((runCommands b (runCommands a r).1).1, (runCommands a r).2 ++ (runCommands b (runCommands a r).1).2) := by
  induction a with
  | nil => intro r; simp [runCommands]
  | cons c cs ih => intro r; simp [runCommands, ih]

/-! ### The payload operand and exec -/

theorem takePayload_ready {hb : Bool} {s : State} {P : List Byte} {n : Nat} (h : PayloadReady hb s P n) :
    takePayload hb s = some (P, takeBeats n s) := by
  rcases h with ⟨rfl, rfl, rfl⟩ | ⟨rfl, h⟩
  · rfl
  · simp [takePayload, h]

theorem takePayload_cases (hb : Bool) (s : State) :
    (takePayload hb s = none ∧ hb = true ∧ take s.beats = none) ∨
    ∃ P n, PayloadReady hb s P n ∧ takePayload hb s = some (P, takeBeats n s) := by
  cases hb with
  | false => right; exact ⟨[], 0, Or.inl ⟨rfl, rfl, rfl⟩, rfl⟩
  | true =>
    cases h : take s.beats with
    | none => left; simp [takePayload, h]
    | some x => right; exact ⟨x.1, x.2, Or.inr ⟨rfl, h⟩, by simp [takePayload, h]⟩

theorem exec_add_ready {hb : Bool} {s : State} {P : List Byte} {n : Nat} (h : PayloadReady hb s P n) :
    exec (.add hb) s = .next (answer (hasherAdd P s.regs) (takeBeats n s)) := by
  simp [exec, execAdd, takePayload_ready h]

theorem exec_hashOnce_ready {seed} {hb : Bool} {s : State} {P : List Byte} {n : Nat} (h : PayloadReady hb s P n) :
    exec (.hashOnce seed hb) s = .next (answer (engineHashOnce seed P s.regs) (takeBeats n s)) := by
  simp [exec, execHashOnce, takePayload_ready h]

/-- Everything `exec` can do: wait for the payload, or run the command on it (R131, R177). -/
theorem exec_cases (i : Instr) (s : State) :
    (exec i s = .fault .awaitingPayload ∧ needsBeats i = true ∧ take s.beats = none) ∨
    ∃ P n, PayloadReady (needsBeats i) s P n ∧
      exec i s = .next (answer (execCommand (commandOf i P) s.regs) (takeBeats n s)) := by
  cases i with
  | init seed => right; exact ⟨[], 0, Or.inl ⟨rfl, rfl, rfl⟩, rfl⟩
  | finalize => right; exact ⟨[], 0, Or.inl ⟨rfl, rfl, rfl⟩, rfl⟩
  | add hb =>
    rcases takePayload_cases hb s with ⟨h, h1, h2⟩ | ⟨P, n, h, h'⟩
    · left; exact ⟨by simp [exec, execAdd, h], h1, h2⟩
    · right; exact ⟨P, n, h, exec_add_ready h⟩
  | hashOnce seed hb =>
    rcases takePayload_cases hb s with ⟨h, h1, h2⟩ | ⟨P, n, h, h'⟩
    · left; exact ⟨by simp [exec, execHashOnce, h], h1, h2⟩
    · right; exact ⟨P, n, h, exec_hashOnce_ready h⟩

/-! ### The step and the host -/

theorem transferResponse_regs (s : State) : (transferResponse s).regs = s.regs := by
  unfold transferResponse; split <;> (try split) <;> rfl

/-- Everything a step that answers a next state can be: a reset, the transfer of a response, or one command (R131). -/
theorem step_cases (s t : State) (h : step s = .next t) :
    (s.rst = true ∧ t = resetEngine s) ∨
    (s.rst = false ∧ ∃ r, s.rsp = some r ∧ s.rspReady = true ∧ t = { s with rsp := none, sent := s.sent ++ [r] }) ∨
    (s.rst = false ∧ s.rsp = none ∧ ∃ w ws P n, s.cmds = w :: ws ∧ PayloadReady (needsBeats (decode w)) s P n ∧
      t = transferResponse (answer (execCommand (commandOf (decode w) P) s.regs) (takeBeats n (popCommand s)))) := by
  unfold step at h
  cases hr : s.rst
  · right
    rw [if_neg (by simp [hr])] at h
    cases hp : s.rsp with
    | some r =>
      left
      rw [if_pos (by simp [hp])] at h
      split at h
      · rename_i h1; cases h; exact ⟨rfl, r, rfl, h1, by simp [transferResponse, hp, h1, hr]⟩
      · cases h
    | none =>
      right
      rw [if_neg (by simp [hp])] at h
      split at h
      · cases h
      · rename_i w ws hc
        rcases exec_cases (decode w) (popCommand s) with ⟨he, _⟩ | ⟨P, n, hq, he⟩
        · rw [he] at h; cases h
        · rw [he] at h; cases h
          exact ⟨rfl, rfl, w, ws, P, n, hc, hq, rfl⟩
  · left; rw [if_pos hr] at h; cases h; exact ⟨rfl, rfl⟩

theorem hostAct_regs (a s) : (hostAct a s).regs = s.regs := by cases a <;> rfl

/-! ### Runs of clock edges -/

theorem joinXfers_assoc (a b c : Xfers) : joinXfers (joinXfers a b) c = joinXfers a (joinXfers b c) := by
  simp [joinXfers]

theorem edges_append (a b : List (PinsIn × Timing)) : ∀ e, edges (a ++ b) e = ((edges b (edges a e).1).1, joinXfers (edges a e).2 (edges b (edges a e).1).2) := by
  induction a with
  | nil => intro e; simp [edges, joinXfers]
  | cons x a ih => intro e; obtain ⟨p, t⟩ := x; simp [edges, ih, joinXfers_assoc]

/-- One more edge of an endless run. -/
theorem edgesTo_succ (es : Nat → PinsIn × Timing) (n : Nat) (e : PinEngine) :
    edgesTo es (n + 1) e =
      (edge (edgesTo es n e).1 (es n).1 (es n).2,
       joinXfers (edgesTo es n e).2 (edgeXfers (edgesTo es n e).1 (es n).1 (es n).2)) := by
  unfold edgesTo
  rw [List.range_succ, List.map_append, edges_append]
  simp [edges, joinXfers]

end Sys2Proof.Laws
end

