-- ==== Sys2Proof/Laws/PerInstr.lean ====
section
/-! SUPPORT. A fact about every command as syntax, one lemma per constructor: its canonical word carries its opcode
(30_encoding.md R63, R66, R79). -/

/-- The opcode field of the canonical word of a command is the command's opcode (R66). -/
def Sys2Proof.Laws.OpcodeField.Statement (i : Sys2Proof.Instr) : Prop :=
  Sys2Proof.cwOp (Sys2Proof.encode i) = Sys2Proof.opcode i

theorem Sys2Proof.Laws.OpcodeField.init (seed : Sys2Proof.Word) :
    Sys2Proof.Laws.OpcodeField.Statement (.init seed) := Sys2Proof.Laws.cwOp_make _ _ _

theorem Sys2Proof.Laws.OpcodeField.add (hasBeats : Bool) :
    Sys2Proof.Laws.OpcodeField.Statement (.add hasBeats) := Sys2Proof.Laws.cwOp_make _ _ _

theorem Sys2Proof.Laws.OpcodeField.finalize :
    Sys2Proof.Laws.OpcodeField.Statement .finalize := Sys2Proof.Laws.cwOp_make _ _ _

theorem Sys2Proof.Laws.OpcodeField.hashOnce (seed : Sys2Proof.Word) (hasBeats : Bool) :
    Sys2Proof.Laws.OpcodeField.Statement (.hashOnce seed hasBeats) := Sys2Proof.Laws.cwOp_make _ _ _
end

