-- ==== Sys2Proof/Tests/Slice0.lean ====
section
/-! SUPPORT. Tests. Expected values are the vectors of 95_test_vectors.md, named in each comment, or the numbered rule
named there; the last part shows, for every statement with hypotheses, states and operands that meet them. -/

namespace Sys2Proof.Tests

open Sys2Proof.Machine

/-! ### Small states -/

/-- An active context: a hash in progress after INIT with seed `seed`. -/
def active (hash tail : Word) (count : BitVec 2) (size seed : Word) : Regs :=
  { hash := hash, tail := tail, count := count, size := size, seed := seed, fin := false }

/-- `FZ` of section 7: the finalized state left by `INIT 0; ADD "test"; FINALIZE`. -/
def finalized : Regs := { resetRegs with hash := 0x3D31CCC8#32, size := 4#32 }

/-- The reset state with these registers and these words offered. -/
def offer (r : Regs) (cmds : List CmdWord) (beats : List Beat) : State :=
  { State.reset with regs := r, cmds := cmds, beats := beats }

/-- The step answers a next state with these registers, these beats left and this response transferred last. -/
def answers (s : State) (r : Regs) (beats : List Beat) (rsp : Response) : Bool :=
  match step s with
  | .next t => decide (t.regs = r) && decide (t.beats = beats) && decide (t.sent.getLast? = some rsp)
  | .fault _ => false
  | .refused _ => false

/-- The step stops by this name. -/
def stops (s : State) (f : Fault) : Bool :=
  match step s with
  | .next _ => false
  | .fault g => decide (g = f)
  | .refused _ => false

/-! ### Well-formedness: every check with a term it refuses -/

/-- R75: no decoded command is ill formed, so the checks are on numbers and on the framing of payloads. -/
theorem test_every_instruction_is_well_formed (i : Instr) : i.wellFormed = true := by cases i <;> rfl

/-- R63: 35 bits; V-ENC-12 is the largest word. -/
theorem test_isWord35 : isWord35 0x7FFFFFFFF = true ∧ isWord35 0x800000000 = false := by decide

/-- A number that is no command word is refused by name. -/
theorem test_decodeNat_refuses : decodeNat 0x800000000 = .error .widerThanCommandWord := by decide

/-- R69: no beat, no final beat, a final beat too early. -/
theorem test_framed : framed [] = false ∧ framed [false] = false ∧ framed [true, false] = false ∧
    framed [false, true] = true := by decide

/-! ### Encodings -/

/-- V-ENC-1 to V-ENC-3: INIT. -/
theorem test_decode_init : decode 0x000000000#35 = .init 0#32 ∧ decode 0x09747B28C#35 = .init 0x9747B28C#32 ∧
    decode 0x100000005#35 = .init 5#32 := by decide

/-- V-ENC-4 to V-ENC-7: ADD. -/
theorem test_decode_add : decode 0x200000000#35 = .add true ∧ decode 0x300000000#35 = .add false ∧
    decode 0x2FFFFFFFF#35 = .add true ∧ decode 0x3DEADBEEF#35 = .add false := by decide

/-- V-ENC-8, V-ENC-9: FINALIZE. -/
theorem test_decode_finalize : decode 0x400000000#35 = .finalize ∧ decode 0x5FFFFFFFF#35 = .finalize := by decide

/-- V-ENC-10 to V-ENC-13: HASH_ONCE. -/
theorem test_decode_hashOnce : decode 0x600000000#35 = .hashOnce 0#32 true ∧
    decode 0x700000001#35 = .hashOnce 1#32 false ∧ decode 0x7FFFFFFFF#35 = .hashOnce 0xFFFFFFFF#32 false ∧
    decode 0x69747B28C#35 = .hashOnce 0x9747B28C#32 true := by decide

/-- R63 bit by bit: opcode 11, e = 0, seed 1. -/
theorem test_decode_bits : decode 0b11000000000000000000000000000000001#35 = .hashOnce 1#32 true := by decide

/-- V-ENC, the canonical rows, the other way. -/
theorem test_encode : encode (.init 0x9747B28C#32) = 0x09747B28C#35 ∧ encode (.add true) = 0x200000000#35 ∧
    encode (.add false) = 0x300000000#35 ∧ encode .finalize = 0x400000000#35 ∧
    encode (.hashOnce 1#32 false) = 0x700000001#35 ∧ encode (.hashOnce 0x9747B28C#32 true) = 0x69747B28C#35 := by
  decide

/-- V-ENC-25 to V-ENC-28: one payload in four beats, unused lanes ignored. -/
theorem test_take : take [0x0DEADBECC#35, 0x2BEFFEEDD#35, 0x1ADBE2211#35, 0x4DEADBE33#35, 0x400000000#35] =
    some ([0xCC#8, 0xDD#8, 0xEE#8, 0xFF#8, 0x11#8, 0x22#8, 0x33#8], 4) := by decide

/-- The canonical form of that payload (section 7). -/
theorem test_canonicalBeats : canonicalBeats [0xCC#8, 0xDD#8, 0xEE#8, 0xFF#8, 0x11#8, 0x22#8, 0x33#8] =
    [0x3FFEEDDCC#35, 0x600332211#35] := by decide

/-- Response words (section 7). -/
theorem test_responses : encodeResponse .ok = 0#33 ∧ encodeResponse (.okHash 0x3D31CCC8#32) = 0x03D31CCC8#33 ∧
    encodeResponse .errInvalidState = 0x100000000#33 ∧ decodeResponse 0#2 0#33 = .ok ∧
    decodeResponse 2#2 0#33 = .okHash 0#32 ∧ decodeResponse 1#2 0x100000000#33 = .errInvalidState := by decide

/-! ### The host's two questions -/

/-- R66: the match values of the table. -/
theorem test_decodeTableWord : decodeTableWord 35 0x000000000 = some (.init 0#32) ∧
    decodeTableWord 35 0x200000000 = some (.add true) ∧ decodeTableWord 40 0x400000000 = some .finalize ∧
    decodeTableWord 35 0x600000000 = some (.hashOnce 0#32 true) ∧ decodeTableWord 40 0x800000000 = none := by decide

/-- R110: INIT as the first command after reset. -/
theorem test_withFetchWord_init : answers (State.reset.withFetchWord 35 0x000000005)
    (active 5#32 0#32 0#2 0#32 5#32) [] .ok = true := by decide

/-- R151: ADD straight after reset, with the one zero byte of log entry 7. -/
theorem test_withFetchWord_add : answers (State.reset.withFetchWord 35 0x200000000) resetRegs [] .errInvalidState = true := by
  decide

/-- V-H-4: HASH_ONCE of the one zero byte of log entry 7. -/
theorem test_withFetchWord_hashOnce :
    answers (State.reset.withFetchWord 40 0x600000000) resetRegs [] (.okHash 0xB2408361#32) = true := by decide

/-! ### The mixer and the finishing step -/

/-- V-MIX-4, V-MIX-7, V-MIX-10 (the shift is logical). -/
theorem test_mix : mix 1#32 1#32 = 0xC1F67B73#32 ∧ mix 0x12345678#32 0x9ABCDEF0#32 = 0xC96C4680#32 ∧
    mix 0#32 0x80000000#32 = 0x68F4CA80#32 := by decide

/-- V-FMIX-3, V-FMIX-6. -/
theorem test_fmix : fmix 0xFFFFFFFF#32 = 0xB35966B0#32 ∧ fmix 0x99174785#32 = 0x3D31CCC8#32 := by decide

/-- V-TS-6: three zero bytes pending. -/
theorem test_tailStep : tailStep ⟨0x12345678#32, 0#32, 3#2, 3#32⟩ 0x80#8 = ⟨0x13D54158#32, 0#32, 0#2, 3#32⟩ := by decide

/-- V-WS-1, V-WS-5: little-endian. -/
theorem test_memRead4 : memRead4 [0x74#8, 0x65#8, 0x73#8, 0x74#8] 0 = some 0x74736574#32 ∧
    memRead4 [0x00#8, 0x00#8, 0x00#8, 0x00#8, 0x80#8] 1 = some 0x80000000#32 ∧ memRead4 [0x00#8] 0 = none := by decide

/-- V-ADD-18: SIZE wraps. -/
theorem test_absorb_wraps : absorb ⟨7#32, 0xBBAA#32, 2#2, 0xFFFFFFFE#32⟩ [0xCC#8, 0xDD#8, 0xEE#8] =
    ⟨0xC099B273#32, 0xEE#32, 1#2, 1#32⟩ := by decide

/-! ### One step of each command -/

/-- V-INIT-3: the hash in progress is dropped. -/
theorem test_step_init : answers (offer (active 0x9747B28C#32 0x00020100#32 3#2 3#32 0x9747B28C#32) [0x0FFFFFFFF#35] [])
    (active 0xFFFFFFFF#32 0#32 0#2 0#32 0xFFFFFFFF#32) [] .ok = true := by decide

/-- V-INIT-5: `e` is ignored and no beat is taken. -/
theorem test_step_init_ignores_e : answers (offer resetRegs [0x100000005#35] [0x400000031#35])
    (active 5#32 0#32 0#2 0#32 5#32) [0x400000031#35] .ok = true := by decide

/-- P5 step 3: FILL, BULK and FILL, from beats that are not canonical. -/
theorem test_step_add : answers
    (offer (active 1#32 0xBBAA#32 2#2 2#32 1#32) [0x200000000#35]
      [0x0DEADBECC#35, 0x2BEFFEEDD#35, 0x1ADBE2211#35, 0x4DEADBE33#35])
    (active 0xAD4D74CA#32 0x33#32 1#2 9#32 1#32) [] .ok = true := by decide

/-- V-ERR-6: a rejected ADD takes its three beats and no more. -/
theorem test_step_add_rejected : answers
    (offer finalized [0x200000000#35] [0x36C6C6568#35, 0x36F77206F#35, 0x600646C72#35, 0x774736574#35])
    finalized [0x774736574#35] .errInvalidState = true := by decide

/-- V-FIN-11. -/
theorem test_step_finalize : answers (offer (active 0x220D3E62#32 0x31#32 1#2 5#32 0#32) [0x400000000#35] [])
    { active 0xF99C0157#32 0x31#32 1#2 5#32 0#32 with fin := true } [] (.okHash 0xF99C0157#32) = true := by decide

/-- V-ERR-2: the second FINALIZE. -/
theorem test_step_finalize_rejected : answers (offer finalized [0x400000000#35] []) finalized [] .errInvalidState = true := by
  decide

/-- V-H-20. -/
theorem test_step_hashOnce : answers
    (offer resetRegs [0x600000000#35] [0x36C6C6568#35, 0x36F77206F#35, 0x600646C72#35])
    resetRegs [] (.okHash 0x9DFC8997#32) = true := by decide

/-- P3 step 3: HASH_ONCE in the middle of a hash. -/
theorem test_step_hashOnce_keeps_context : answers
    (offer (active 0x9747B28C#32 0x00020100#32 3#2 3#32 0x9747B28C#32) [0x600000000#35] [0x774736574#35])
    (active 0x9747B28C#32 0x00020100#32 3#2 3#32 0x9747B28C#32) [] (.okHash 0x3D31CCC8#32) = true := by decide

/-- R177: a payload without its last beat. -/
theorem test_step_waits_for_payload : stops (offer resetRegs [0x200000000#35] [0x374736574#35]) .awaitingPayload = true := by
  decide

/-- R131: no command word. -/
theorem test_step_waits_for_command : stops State.reset .awaitingCommand = true := by decide

/-- R178: a response not taken. -/
theorem test_step_waits_for_host :
    stops { State.reset with rsp := some .ok, rspReady := false, cmds := [0#35] } .awaitingResponse = true := by decide

/-! ### The text form -/

/-- R77, R78: literals and comments. -/
theorem test_assemble_init : assembleLine "INIT 0x9747B28C ; seed".toList = some [.init 0x9747B28C#32] ∧
    assembleLine "INIT".toList = some [.init 0#32] ∧ assembleLine "INIT 4294967296".toList = none := by decide

/-- R77: both payload forms. -/
theorem test_assemble_add : assembleLine "ADD [74 65 73 74]".toList = some [.add [0x74#8, 0x65#8, 0x73#8, 0x74#8]] ∧
    assembleLine "ADD []".toList = some [.add []] ∧ assembleLine "FINALIZE".toList = some [.finalize] := by decide

/-- R78: the pseudo-instruction. -/
theorem test_assemble_hashctx : assembleLine "HASHCTX 1, [00]".toList =
    some [.init 1#32, .add [0#8], .finalize] ∧ assembleLine "HASH_ONCE 1, [00]".toList = some [.hashOnce 1#32 [0#8]] := by
  decide

/-! ### At the pins -/

/-- Input pins: nothing valid, not ready, no reset. -/
def quiet : PinsIn :=
  { rst := false, cmdValid := false, cmdWord := 0#35, datValid := false, datBeat := 0#35, rspReady := false }

/-- An engine that takes what it can at once. -/
def prompt : Timing := { takesCommand := true, takesBeat := true, done := true }

/-- An engine that takes nothing and is not done. -/
def slow : Timing := { takesCommand := false, takesBeat := false, done := false }

/-- INIT 0, one command: offered, executed, answered. -/
def initEdges : List (PinsIn × Timing) :=
  [({ quiet with cmdValid := true }, prompt), (quiet, prompt), ({ quiet with rspReady := true }, prompt)]

/-- The same command with pauses. -/
def slowInitEdges : List (PinsIn × Timing) :=
  [({ quiet with cmdValid := true }, slow), ({ quiet with cmdValid := true }, prompt), (quiet, slow), (quiet, prompt),
   (quiet, prompt), ({ quiet with rspReady := true }, slow)]

/-- V-RST-3: reset in the middle of an ADD. -/
theorem test_pins_reset_in_mid_command :
    let e := (edges [({ quiet with cmdValid := true, cmdWord := 0x200000000#35 }, prompt),
      ({ quiet with datValid := true, datBeat := 0x374736574#35 }, prompt)] { pinReset with regs := active 0#32 0#32 0#2 0#32 0#32 }).1
    e.loop = .collecting (.add true) [0x74#8, 0x65#8, 0x73#8, 0x74#8] ∧
      edge e { quiet with rst := true } prompt = pinReset := by decide

/-- V-INIT-1 at the pins, fast and slow. -/
theorem test_pins_init : (edges initEdges pinReset).2 = { cmds := [0#35], beats := [], rsps := [0#33] } ∧
    (edges slowInitEdges pinReset).2 = { cmds := [0#35], beats := [], rsps := [0#33] } := by decide

/-! ### Witnesses: what meets the hypotheses of each statement -/

/-- A reached state: a command word offered after reset. -/
theorem test_witness_reachable : Reachable (offer resetRegs [0#35] []) :=
  .host (.offerCommand 0#35) .reset

theorem test_witness_ResetValuesAreUnobservableZeros :
    (hostAct .assertReset State.reset).rst = true ∧ finalized.fin = true ∧
    ∀ c ∈ [Command.add [0#8], .finalize, .hashOnce 1#32 [0#8]], isInit c = false := by decide

theorem test_witness_ResetStepRestartsEverything :
    ({ offer finalized [0#35] [0#35] with rst := true, rsp := some .ok } : State).rst = true := by decide

/-- The invariant at each count, with the largest tail it allows, and a step from such a state. -/
theorem test_witness_TailInvariantIsInductive :
    TailInv ⟨7#32, 0#32, 0#2, 0#32⟩ ∧ TailInv ⟨7#32, 0xFF#32, 1#2, 0#32⟩ ∧ TailInv ⟨7#32, 0xFFFF#32, 2#2, 0#32⟩ ∧
    TailInv ⟨7#32, 0xFFFFFF#32, 3#2, 0#32⟩ ∧ ¬ TailInv ⟨7#32, 0x1000000#32, 3#2, 0#32⟩ := by
  unfold TailInv; decide

theorem test_witness_invariants_step :
    TailInv (quadOf (active 7#32 0xFFFFFF#32 3#2 3#32 7#32)) ∧ CountInv (quadOf (active 7#32 0xFFFFFF#32 3#2 3#32 7#32)) ∧
    ∃ t, step (offer (active 7#32 0xFFFFFF#32 3#2 3#32 7#32) [0x200000000#35] [0x400000001#35]) = .next t :=
  ⟨by unfold TailInv; decide, by unfold CountInv; decide, _, rfl⟩

theorem test_witness_SeedRegisterIsUnobservable : isInit (.add [0#8]) = false ∧ isInit .finalize = false := by decide

theorem test_witness_DecodeEncodeRoundTrip : (Instr.hashOnce 0xFFFFFFFF#32 true).wellFormed = true := by decide

theorem test_witness_TransactionRoundTrip : ([0#8] : List Byte) ≠ [] := by decide

/-- A status bit of each value, under each opcode. -/
theorem test_witness_DecodeFollowsItsFunction :
    (0x1FFFFFFFF#33).getLsbD 32 = true ∧ (0x0FFFFFFFF#33).getLsbD 32 = false := by decide

/-- A full beat, and two beats that differ in an ignored lane only (V-ENC-28). -/
theorem test_witness_BeatCarriesItsLowLanes :
    (0x774736574#35).extractLsb' 32 2 = 3#2 ∧
    (0x4DEADBE33#35 : Beat).extractLsb' 32 2 = (0x400000033#35 : Beat).extractLsb' 32 2 ∧
    (0x4DEADBE33#35 : Beat).extractLsb' 0 8 = (0x400000033#35 : Beat).extractLsb' 0 8 := by decide

/-- A framed payload, a taken one with beats behind it, one that is not finished, a word without beats. -/
theorem test_witness_PayloadAssembly :
    framed ([0x374736574#35, 0x400000031#35].map beatLast) = true ∧
    take [0x374736574#35, 0x400000031#35, 0x400000000#35] = some ([0x74#8, 0x65#8, 0x73#8, 0x74#8, 0x31#8], 2) ∧
    take [0x374736574#35] = none ∧ needsBeats (decode 0x300000000#35) = false := by decide

/-- Payloads of 4 and 5 bytes: a last beat that is full, and one whose lane 1 is past the end. -/
theorem test_witness_CanonicalBeatsCarryThePayload :
    canonicalBeats [1#8, 2#8, 3#8, 4#8] ≠ [] ∧ (canonicalBeats [1#8, 2#8, 3#8, 4#8, 5#8]).dropLast ≠ [] ∧
    (canonicalBeats [1#8, 2#8, 3#8, 4#8, 5#8])[1]?.isSome = true ∧
    [1#8, 2#8, 3#8, 4#8, 5#8].length ≤ 4 * 1 + 1 := by decide

/-- Each count at the edge of its clause, with the invariant. -/
theorem test_witness_TailStepAbsorbsOneByte :
    (3#2 : BitVec 2) = 3#2 ∧ (2#2 : BitVec 2) ≠ 3#2 ∧ TailInv ⟨0#32, 0xFFFFFF#32, 3#2, 0#32⟩ ∧
    TailInv ⟨0#32, 0xFFFF#32, 2#2, 0#32⟩ := by
  unfold TailInv; decide

/-- V-ADD-13, V-ADD-6 and V-ADD-8: a tail completed with a word left, bytes left after BULK, and no mix. -/
theorem test_witness_PhasesOfAddConsumeEverything :
    TailInv ⟨0#32, 0x61#32, 1#2, 1#32⟩ ∧
    (fill ⟨0#32, 0x61#32, 1#2, 1#32⟩ [0x62#8, 0x63#8, 0x64#8, 0x65#8, 0x66#8, 0x67#8, 0x68#8]).2 ≠ [] ∧
    (bulk ⟨0#32, 0#32, 0#2, 0#32⟩ [0x61#8, 0x62#8, 0x63#8, 0x64#8, 0x65#8]).2 ≠ [] ∧
    ¬ (0 < (1#2 : BitVec 2).toNat ∧ 4 - (1#2 : BitVec 2).toNat ≤ [0x62#8].length) := by
  unfold TailInv; decide

theorem test_witness_AbsorbIsByteSerial : TailInv ⟨5#32, 0#32, 0#2, 0#32⟩ ∧ TailInv ⟨5#32, 0xBBAA#32, 2#2, 2#32⟩ := by
  unfold TailInv; decide

/-- An active context with a payload in beats, and one with the empty payload. -/
theorem test_witness_AddHasItsClosedForm :
    (active 0#32 0x61#32 1#2 1#32 0#32).fin = false ∧ TailInv (quadOf (active 0#32 0x61#32 1#2 1#32 0#32)) ∧
    PayloadReady true (offer (active 0#32 0x61#32 1#2 1#32 0#32) [] [0x500006362#35]) [0x62#8, 0x63#8] 1 ∧
    PayloadReady false (offer (active 0#32 0x61#32 1#2 1#32 0#32) [] []) [] 0 :=
  ⟨rfl, by unfold TailInv; decide, .inr ⟨rfl, by decide⟩, .inl ⟨rfl, rfl, rfl⟩⟩

theorem test_witness_AddFollowsItsRule :
    PayloadReady true (offer resetRegs [] [0x400000061#35]) [0x61#8] 1 ∧
    PayloadReady true (offer (active 0#32 0#32 0#2 0#32 0#32) [] [0x400000061#35]) [0x61#8] 1 :=
  ⟨.inr ⟨rfl, by decide⟩, .inr ⟨rfl, by decide⟩⟩

/-- The five clauses at the edges of their lengths: 4 - COUNT - 1, 4 - COUNT, 7 - COUNT, and the wrap (V-ADD-18). -/
theorem test_witness_AddCornerCases :
    TailInv ⟨7#32, 0xBBAA#32, 2#2, 0xFFFFFFFE#32⟩ ∧
    [0xCC#8].length < 4 - (2#2 : BitVec 2).toNat ∧ [0xCC#8, 0xDD#8].length = 4 - (2#2 : BitVec 2).toNat ∧
    [1#8, 2#8, 3#8, 4#8, 5#8].length < 8 - (2#2 : BitVec 2).toNat ∧ [0xCC#8, 0xDD#8, 0xEE#8].length = 3 := by
  unfold TailInv; decide

theorem test_witness_FinalizeFollowsItsRule :
    (active 0#32 0#32 0#2 0#32 0#32).fin = false ∧ finalized.fin = true := by decide

theorem test_witness_FinalizeCornerCases :
    (active 0x220D3E62#32 0#32 0#2 4#32 0#32).fin = false ∧ TailInv (quadOf (active 0x220D3E62#32 0#32 0#2 4#32 0#32)) := by
  unfold TailInv; decide

/-- Both sides of the error: a finalized and an active context, each with a payload, and the steps they take. -/
theorem test_witness_rejection :
    PayloadReady true (offer finalized [] [0x400000078#35]) [0x78#8] 1 ∧
    (∃ t, exec (.add true) (offer finalized [] [0x400000078#35]) = .next t ∧ t.rsp = some .errInvalidState) ∧
    (∃ t, exec (.add false) (offer (active 0#32 0#32 0#2 0#32 0#32) [] []) = .next t ∧ t.rsp = some .ok) ∧
    (∃ t, exec .finalize (offer finalized [] []) = .next t ∧ t.rsp = some .errInvalidState) :=
  ⟨.inr ⟨rfl, by decide⟩, ⟨_, rfl, rfl⟩, ⟨_, rfl, rfl⟩, ⟨_, rfl, rfl⟩⟩

theorem test_witness_ErrorsRepeatUntilInit :
    finalized.fin = true ∧ ∀ c ∈ [Command.add [0x78#8], .finalize, .add []], canFail c = true := by decide

/-- An unfinished payload with beats there, none at all, and a finished one. -/
theorem test_witness_OnlyAnUnfinishedPayloadStopsACommand :
    (∀ b ∈ (offer resetRegs [] [0x374736574#35]).beats, beatLast b = false) ∧
    (∀ b ∈ (offer resetRegs [] []).beats, beatLast b = false) ∧
    ∃ b ∈ (offer resetRegs [] [0x374736574#35, 0x400000031#35]).beats, beatLast b = true :=
  ⟨List.forall_mem_singleton.2 rfl, List.forall_mem_nil _, 0x400000031#35, .tail _ (.head _), rfl⟩

/-- Each command answers a next state; the ADD at the edge of the clause on HASH: COUNT + length = 3. -/
theorem test_witness_AccessTableFrames :
    (∃ t, exec (.add true) (offer (active 0#32 0x61#32 1#2 1#32 0#32) [] [0x500006362#35]) = .next t) ∧
    PayloadReady true (offer (active 0#32 0x61#32 1#2 1#32 0#32) [] [0x500006362#35]) [0x62#8, 0x63#8] 1 ∧
    (∃ t, exec .finalize (offer finalized [] []) = .next t) ∧ (∃ t, exec (.init 1#32) (offer finalized [] []) = .next t) ∧
    ∃ t, exec (.hashOnce 1#32 false) (offer finalized [] []) = .next t :=
  ⟨⟨_, rfl⟩, .inr ⟨rfl, by decide⟩, ⟨_, rfl⟩, ⟨_, rfl⟩, ⟨_, rfl⟩⟩

/-- V-ERR-8: INIT in a finalized context changes registers. -/
theorem test_witness_OnlyInitLeavesFinalized :
    (offer finalized [0#35] []).rst = false ∧ (offer finalized [0#35] []).regs.fin = true ∧
    ∃ t, step (offer finalized [0#35] []) = .next t ∧ t.regs ≠ (offer finalized [0#35] []).regs :=
  ⟨rfl, rfl, _, rfl, by decide⟩

theorem test_witness_LifecycleTable :
    (active 0#32 0#32 0#2 0#32 0#32).fin = false ∧ finalized.fin = true ∧
    (hostAct .assertReset (offer finalized [] [])).rst = true := by decide

theorem test_witness_HashOnceAnswersTheClosedFormula :
    PayloadReady true (offer finalized [] [0x374736574#35, 0x400000031#35]) [0x74#8, 0x65#8, 0x73#8, 0x74#8, 0x31#8] 2 ∧
    PayloadReady false (offer finalized [] [0x374736574#35]) [] 0 :=
  ⟨.inr ⟨rfl, by decide⟩, .inl ⟨rfl, rfl, rfl⟩⟩

theorem test_witness_ChunkIndependence : TailInv ⟨1#32, 0xBBAA#32, 2#2, 2#32⟩ := by unfold TailInv; decide

theorem test_witness_DifferentSeedsDifferentHashes : (0#32 : Word) ≠ 1#32 := by decide

/-- A command that completes with the host ready, one with the host not ready, and one that waits for its payload. -/
theorem test_witness_StepRunsTheDecodedCommand :
    (offer finalized [0x400000000#35] []).rsp = none ∧
    (∃ t, exec (decode 0x400000000#35) { offer finalized [0x400000000#35] [] with cmds := [] } = .next t) ∧
    (∃ t, exec (decode 0x400000000#35)
      { offer finalized [0x400000000#35] [] with cmds := [], rspReady := false } = .next t) ∧
    exec (decode 0x200000000#35) { offer finalized [0x200000000#35] [] with cmds := [] } = .fault .awaitingPayload :=
  ⟨rfl, ⟨_, rfl⟩, ⟨_, rfl⟩, rfl⟩

theorem test_witness_EngineWaitsForItsHost :
    State.reset.rst = false ∧ State.reset.rsp = none ∧ State.reset.cmds = [] ∧
    ({ State.reset with rsp := some .ok, rspReady := false } : State).rsp = some .ok := by decide

/-- With the host ready and not ready. -/
theorem test_witness_StepIsOneTransaction :
    (offer finalized [0#35] []).rst = false ∧ (offer finalized [0#35] []).rsp = none ∧
    (∃ t, step (offer finalized [0#35] []) = .next t) ∧
    ∃ t, step { offer finalized [0#35] [] with rspReady := false } = .next t :=
  ⟨rfl, rfl, ⟨_, rfl⟩, ⟨_, rfl⟩⟩

/-- P1: INIT, ADD and FINALIZE with the beats of the ADD and one more. -/
theorem test_witness_RunsRefineTheTotalFunction :
    assemble [0#35, 0x200000000#35, 0x400000000#35] [0x774736574#35, 0x400000078#35] =
      some ([.init 0#32, .add [0x74#8, 0x65#8, 0x73#8, 0x74#8], .finalize], [0x400000078#35]) := by decide

theorem test_witness_MicroPhasesRefineTheCommands : isHashOnce (.add [0#8]) = false ∧ isHashOnce .finalize = false := by
  decide

theorem test_witness_PinRunsRefineTheTotalFunction :
    (∀ x ∈ initEdges, x.1.rst = false) ∧ (edges initEdges pinReset).1.loop = .idle := by decide

/-- Two different runs with the same transfers. -/
theorem test_witness_NothingDependsOnTiming :
    pinReset.loop = .idle ∧ (∀ x ∈ initEdges, x.1.rst = false) ∧ (∀ x ∈ slowInitEdges, x.1.rst = false) ∧
    (edges initEdges pinReset).1.loop = .idle ∧ (edges slowInitEdges pinReset).1.loop = .idle ∧
    (edges initEdges pinReset).2.cmds = (edges slowInitEdges pinReset).2.cmds ∧
    (edges initEdges pinReset).2.beats = (edges slowInitEdges pinReset).2.beats := by decide

theorem test_witness_PinResetAbandonsEverything : ({ quiet with rst := true } : PinsIn).rst = true := by decide

/-- A word taken, a beat taken, a response held, one that comes to be offered, and registers that change. -/
theorem test_witness_ChannelsTakeTurns :
    (pinsOut pinReset quiet prompt).cmdReady = true ∧
    (pinsOut { pinReset with loop := .collecting (.add true) [] } quiet prompt).datReady = true ∧
    (pinsOut { pinReset with loop := .offering .errInvalidState } quiet slow).rspWord = some 0x100000000#33 ∧
    (edge { pinReset with loop := .executing (.init 5#32) } quiet prompt).loop = .offering .ok ∧
    xferCommand pinReset { quiet with cmdValid := true } prompt ≠ none ∧
    xferBeat { pinReset with loop := .collecting (.add true) [] } { quiet with datValid := true } prompt ≠ none ∧
    ({ pinReset with loop := .offering .ok } : PinEngine).loop = .offering .ok ∧
    (edge { pinReset with loop := .executing (.init 5#32) } quiet prompt).regs ≠ pinReset.regs := by decide

/-- The host of P1 step 2 with its word and its beat always offered, and an engine that is willing at every third edge
only. -/
def steadyHost (n : Nat) : PinsIn × Timing :=
  ({ rst := false, cmdValid := true, cmdWord := 0x200000000#35, datValid := true, datBeat := 0x774736574#35,
     rspReady := true }, if n % 3 = 0 then prompt else slow)

theorem steadyHost_willing (n : Nat) : n ≤ 3 * n ∧ (steadyHost (3 * n)).2 = prompt := by
  refine ⟨by omega, ?_⟩
  simp [steadyHost]

theorem test_witness_dutiful_host : Dutiful steadyHost pinReset [0x200000000#35] [0x774736574#35] := by
  have zero {m : Nat} (h : m < 1) : m = 0 := by omega
  refine ⟨fun _ => rfl, fun n h _ => ?_, fun n h _ => ?_, fun _ _ => ⟨0, fun _ _ _ => rfl⟩,
    fun _ _ => ⟨0, fun _ _ _ => rfl⟩, fun n => ⟨n, le_refl n, rfl⟩⟩
  · rw [zero h]; rfl
  · rw [zero h]; rfl

theorem test_witness_engine_progress : MakesProgress steadyHost :=
  ⟨fun n => ⟨3 * n, (steadyHost_willing n).1, by rw [(steadyHost_willing n).2]; rfl⟩,
   fun n => ⟨3 * n, (steadyHost_willing n).1, by rw [(steadyHost_willing n).2]; rfl⟩,
   fun n => ⟨3 * n, (steadyHost_willing n).1, by rw [(steadyHost_willing n).2]; rfl⟩⟩

/-- The word at edge 0, the beat at edge 3, done at edge 6, and at once the error of an ADD straight after reset (V-ERR-4). -/
theorem test_pins_slow_engine :
    (edgesTo steadyHost 7 pinReset).2.rsps = [] ∧
    edgesTo steadyHost 8 pinReset =
      (({ pinReset with k := 1 } : PinEngine),
       { cmds := [0x200000000#35], beats := [0x774736574#35], rsps := [0x100000000#33] }) := by decide

/-- A command executing through a busy edge and a waiting one, and a transaction with its beats. -/
theorem test_witness_EveryTransactionIsAnswered :
    (∀ x ∈ [(quiet, slow)], x.1.rst = false ∧ x.2.done = false) ∧ quiet.rst = false ∧ prompt.done = true ∧
    (∀ x ∈ [(quiet, prompt)], x.1.rst = false ∧ x.1.rspReady = false) ∧
    assemble [0x200000000#35] [0x774736574#35] = some ([.add [0x74#8, 0x65#8, 0x73#8, 0x74#8]], []) := by decide

theorem test_witness_EnginesShareNothing :
    ∃ sys, stepEngine 1 [State.reset, offer finalized [0#35] [], State.reset] = some sys :=
  ⟨_, rfl⟩

end Sys2Proof.Tests
end

/-! PROOFS. The family of 10_state.md: the registers' invariants (R27, R29), what SIZE counts (R28), SEED (R25), and
what is fixed while FIN = 1 (R34, R35). The layers: phases of ADD, commands on the registers, steps and reachable states,
and last the statements themselves. -/

namespace Sys2Proof.Proofs

open Sys2Proof.Machine Sys2Proof.Laws

/-! ### What the phases of ADD keep -/

section Phases

variable {J : Quad → Prop}

theorem fill_keeps (hbyte : ∀ q b, J q → J (tailStep q b)) (q : Quad) (P : List Byte) (hq : J q) :
    J (fill q P).1 := by
  induction P generalizing q with
  | nil => exact hq
  | cons b bs ih =>
    rw [fill]
    split
    · exact ih _ (hbyte q b hq)
    · exact hq

theorem bulk_keeps (hword : ∀ q w, J q → J (wordStep q w)) :
    ∀ (P : List Byte) (q : Quad), J q → J (bulk q P).1
  | _ :: _ :: _ :: _ :: bs, q, hq => bulk_keeps hword bs _ (hword q _ hq)
  | [], _, hq => hq
  | [_], _, hq => hq
  | [_, _], _, hq => hq
  | [_, _, _], _, hq => hq

/-- What TAILSTEP and WORDSTEP keep, the phases B to D of ADD keep from the end of phase A on (R112). -/
theorem absorb_keeps (hbyte : ∀ q b, J q → J (tailStep q b)) (hword : ∀ q w, J q → J (wordStep q w))
    (q : Quad) (P : List Byte) (hq : J (addSize q P.length)) : J (absorb q P) :=
  fill_keeps hbyte _ _ (bulk_keeps hword _ _ (fill_keeps hbyte _ P hq))

end Phases

theorem absorb_size (q : Quad) (P : List Byte) : (absorb q P).size = q.size + BitVec.ofNat 32 P.length :=
  absorb_keeps (J := fun p => p.size = q.size + BitVec.ofNat 32 P.length)
    (fun p b hp => (tailStep_size p b).trans hp) (fun _ _ hp => hp) q P rfl

theorem tailStep_keeps_tailInv (q : Quad) (b : Byte) (h : TailInv q) : TailInv (tailStep q b) := by
  rw [tailInv_iff] at h ⊢
  by_cases h3 : q.count = 3#2
  · simp [tailStep_of_three q b h3]
  · have hc : q.count.toNat ≤ 2 := by
      have := q.count.isLt
      have : q.count.toNat ≠ 3 := fun e => h3 (BitVec.eq_of_toNat_eq e)
      omega
    have hc1 : (q.count + 1#2).toNat = q.count.toNat + 1 := by
      rw [BitVec.toNat_add]; exact Nat.mod_eq_of_lt (by simp; omega)
    have hb := b.isLt
    rw [tailStep_of_not_three q b h3]
    simp only [hc1, or_shift_toNat q.tail b _ (by omega : q.count.toNat ≤ 3) h, Nat.mul_add, Nat.pow_add]
    have hbyte := Nat.mul_le_mul_right (2 ^ (8 * q.count.toNat)) (Nat.succ_le_of_lt hb)
    rw [Nat.succ_mul, Nat.mul_comm (2 ^ 8)] at hbyte
    omega

theorem absorb_keeps_tailInv (q : Quad) (P : List Byte) (h : TailInv q) : TailInv (absorb q P) :=
  absorb_keeps tailStep_keeps_tailInv (fun _ _ hq => hq) q P h

/-- A tail step counts one byte modulo 4 (R101). -/
theorem tailStep_count (q : Quad) (b : Byte) : (tailStep q b).count = q.count + 1#2 := by
  by_cases h3 : q.count = 3#2
  · rw [tailStep_of_three q b h3, h3]; rfl
  · rw [tailStep_of_not_three q b h3]

theorem foldl_tailStep_count (q : Quad) (P : List Byte) :
    (P.foldl tailStep q).count = q.count + BitVec.ofNat 2 P.length := by
  induction P generalizing q with
  | nil => simp
  | cons b bs ih =>
    rw [List.foldl_cons, ih, tailStep_count, List.length_cons, Nat.add_comm, BitVec.ofNat_add, BitVec.add_assoc]

/-- BULK leaves the bytes after the last whole word (R104). -/
theorem bulk_rest_length : ∀ (P : List Byte) (q : Quad), (bulk q P).2.length = P.length % 4
  | _ :: _ :: _ :: _ :: bs, q => by
    rw [bulk, bulk_rest_length bs]; simp only [List.length_cons]; omega
  | [], _ => rfl
  | [_], _ => rfl
  | [_, _], _ => rfl
  | [_, _, _], _ => rfl

theorem fill_count (q : Quad) (P : List Byte) :
    (fill q P).1.count + BitVec.ofNat 2 (fill q P).2.length = q.count + BitVec.ofNat 2 P.length := by
  rw [← foldl_tailStep_count, ← fill_foldl, foldl_tailStep_count]

theorem absorb_count (q : Quad) (P : List Byte) : (absorb q P).count = q.count + BitVec.ofNat 2 P.length := by
  set b := fill (addSize q P.length) P with hb
  obtain ⟨hcount, -, -, hshort⟩ := bulk_frame b.2 b.1
  have hrest : BitVec.ofNat 2 (b.2.length % 4) = BitVec.ofNat 2 b.2.length :=
    BitVec.eq_of_toNat_eq (by simp)
  calc (absorb q P).count
      = ((bulk b.1 b.2).2.foldl tailStep (bulk b.1 b.2).1).count := by rw [absorb, ← hb, fill_short _ _ hshort]
    _ = b.1.count + BitVec.ofNat 2 b.2.length := by
        rw [foldl_tailStep_count, hcount, bulk_rest_length, hrest]
    _ = q.count + BitVec.ofNat 2 P.length := fill_count (addSize q P.length) P

/-- The count invariant as numbers (R29). -/
theorem countInv_iff (q : Quad) : CountInv q ↔ q.count.toNat = q.size.toNat % 4 := by
  rw [CountInv, ← BitVec.toNat_inj, BitVec.extractLsb'_toNat, Nat.shiftRight_zero]

theorem absorb_keeps_countInv (q : Quad) (P : List Byte) (h : CountInv q) : CountInv (absorb q P) := by
  rw [countInv_iff] at h ⊢
  rw [absorb_count, absorb_size]
  simp only [BitVec.toNat_add, BitVec.toNat_ofNat]
  omega

/-! ### The commands on the registers -/

/-- INIT writes every register and reads none (R110). -/
theorem hasherInit_eq (seed : Word) (r : Regs) : hasherInit seed r =
    ({ hash := seed, tail := 0#32, count := 0#2, size := 0#32, seed := seed, fin := false }, .ok) := rfl

/-- Everything a command can do to the registers: nothing (HASH_ONCE or a rejection), or what INIT, an accepted ADD or an
accepted FINALIZE does. -/
theorem execCommand_regs_cases (c : Command) (r : Regs) :
    (execCommand c r).1 = r ∨
    (∃ seed, c = .init seed ∧ (execCommand c r).1 = (hasherInit seed r).1) ∨
    (∃ P, c = .add P ∧ (execCommand c r).1 = setQuad r (absorb (quadOf r) P)) ∨
    (c = .finalize ∧ (execCommand c r).1 = setFinalized { r with hash := finish r.hash r.tail r.size }) := by
  cases c with
  | init seed => exact .inr (.inl ⟨seed, rfl, rfl⟩)
  | hashOnce seed P => exact .inl rfl
  | add P =>
    rcases fin_cases r with h | h
    · exact .inl (by rw [execCommand, hasherAdd_finalized _ _ h])
    · exact .inr (.inr (.inl ⟨P, rfl, by rw [execCommand, hasherAdd_active _ _ h]⟩))
  | finalize =>
    rcases fin_cases r with h | h
    · exact .inl (by rw [execCommand, hasherFinalize_finalized _ h])
    · exact .inr (.inr (.inr ⟨rfl, by rw [execCommand, hasherFinalize_active _ h]; rfl⟩))

/-- With FIN = 1 a command other than INIT keeps the registers, and its response does not depend on them (R35). -/
theorem execCommand_finalized (c : Command) (hc : isInit c = false) :
    ∃ a, ∀ r : Regs, r.fin = true → execCommand c r = (r, a) := by
  cases c with
  | init seed => cases hc
  | add P => exact ⟨_, hasherAdd_finalized P⟩
  | finalize => exact ⟨_, hasherFinalize_finalized⟩
  | hashOnce seed P => exact ⟨_, fun _ _ => rfl⟩

theorem runCommands_finalized_regs (cs : List Command) (r : Regs) (hr : r.fin = true)
    (hcs : ∀ c ∈ cs, isInit c = false) : (runCommands cs r).1 = r := by
  induction cs with
  | nil => rfl
  | cons c cs ih =>
    obtain ⟨a, ha⟩ := execCommand_finalized c (hcs c (List.mem_cons_self ..))
    rw [runCommands, ha r hr]
    exact ih fun d hd => hcs d (List.mem_cons_of_mem _ hd)

/-- No response tells two finalized register files apart (R34): until the first INIT the responses do not depend on the
registers, and INIT makes the registers equal. -/
theorem runCommands_finalized_responses (cs : List Command) (r r' : Regs) (hr : r.fin = true) (hr' : r'.fin = true) :
    (runCommands cs r).2 = (runCommands cs r').2 := by
  induction cs with
  | nil => rfl
  | cons c cs ih =>
    cases hc : isInit c with
    | false =>
      obtain ⟨a, ha⟩ := execCommand_finalized c hc
      simp only [runCommands, ha r hr, ha r' hr', ih]
    | true =>
      cases c with
      | init seed => simp only [runCommands, execCommand, hasherInit_eq]
      | add P => cases hc
      | finalize => cases hc
      | hashOnce seed P => cases hc

/-- SEED reaches no response and no other register of one command (R25). -/
theorem execCommand_withSeed (c : Command) (r : Regs) (x : Word) :
    ∃ y, execCommand c { r with seed := x } = ({ (execCommand c r).1 with seed := y }, (execCommand c r).2) := by
  cases c with
  | init seed => exact ⟨seed, rfl⟩
  | hashOnce seed P => exact ⟨x, rfl⟩
  | add P =>
    refine ⟨x, ?_⟩
    rcases fin_cases r with h | h
    · simp only [execCommand, hasherAdd_finalized _ _ h, hasherAdd_finalized P { r with seed := x } h]
    · simp only [execCommand, hasherAdd_active _ _ h, hasherAdd_active P { r with seed := x } h]
      rfl
  | finalize =>
    refine ⟨x, ?_⟩
    rcases fin_cases r with h | h
    · simp only [execCommand, hasherFinalize_finalized _ h, hasherFinalize_finalized { r with seed := x } h]
    · simp only [execCommand, hasherFinalize_active _ h, hasherFinalize_active { r with seed := x } h]

theorem runCommands_withSeed (cs : List Command) (r : Regs) (x : Word) :
    ∃ y, runCommands cs { r with seed := x } = ({ (runCommands cs r).1 with seed := y }, (runCommands cs r).2) := by
  induction cs generalizing r x with
  | nil => exact ⟨x, rfl⟩
  | cons c cs ih =>
    obtain ⟨z, hz⟩ := execCommand_withSeed c r x
    obtain ⟨y, hy⟩ := ih (execCommand c r).1 z
    exact ⟨y, by simp only [runCommands, hz, hy]⟩

theorem execCommand_seed (c : Command) (r : Regs) (hc : isInit c = false) : (execCommand c r).1.seed = r.seed := by
  rcases execCommand_regs_cases c r with h | ⟨seed, rfl, -⟩ | ⟨P, -, h⟩ | ⟨-, h⟩
  · rw [h]
  · cases hc
  · rw [h, setQuad_seed]
  · rw [h, setFinalized_seed]

/-- SIZE after any commands, from any lifecycle state and any count so far (R28). -/
theorem runCommands_size (cs : List Command) (r : Regs) (n : Nat) (hn : r.size = BitVec.ofNat 32 n) :
    (runCommands cs r).1.size = BitVec.ofNat 32 (acceptedBytes r.fin n cs) := by
  induction cs generalizing r n with
  | nil => exact hn
  | cons c cs ih =>
    cases c with
    | init seed => exact ih (hasherInit seed r).1 0 rfl
    | hashOnce seed P => exact ih r n hn
    | add P =>
      rcases fin_cases r with h | h
      · simp only [runCommands, execCommand, hasherAdd_finalized _ _ h, acceptedBytes, h, if_true]
        rw [← h]; exact ih r n hn
      · simp only [runCommands, execCommand, hasherAdd_active _ _ h, acceptedBytes, h]
        rw [ih _ (n + P.length) (by simp [absorb_size, hn, BitVec.ofNat_add]), setQuad_fin, h]
        rfl
    | finalize =>
      rcases fin_cases r with h | h
      · simp only [runCommands, execCommand, hasherFinalize_finalized _ h, acceptedBytes]
        rw [← h]; exact ih r n hn
      · simp only [runCommands, execCommand, hasherFinalize_active _ h, acceptedBytes]
        exact ih _ n hn

/-! ### Steps and reachable states -/

/-- What a step does to the registers: reset, nothing, or one command (R131). -/
theorem step_regs_cases {s t : State} (h : step s = .next t) :
    (s.rst = true ∧ t.regs = resetRegs) ∨ t.regs = s.regs ∨
    ∃ w ws P, s.cmds = w :: ws ∧ t.regs = (execCommand (commandOf (decode w) P) s.regs).1 := by
  rcases step_cases s t h with ⟨hrst, rfl⟩ | ⟨-, r, -, -, rfl⟩ | ⟨-, -, w, ws, P, n, hw, -, rfl⟩
  · exact .inl ⟨hrst, rfl⟩
  · exact .inr (.inl rfl)
  · exact .inr (.inr ⟨w, ws, P, hw, by rw [transferResponse_regs, answer_regs]⟩)

section Invariants

variable {J : Quad → Prop}

/-- A property of the quadruple that does not speak of HASH is kept by every command as soon as it holds after INIT and
ADD keeps it. -/
theorem execCommand_keeps (hinit : ∀ seed, J (scratchInit seed)) (hadd : ∀ q P, J q → J (absorb q P))
    (hhash : ∀ q h, J q → J { q with hash := h }) (c : Command) (r : Regs) (hr : J (quadOf r)) :
    J (quadOf (execCommand c r).1) := by
  rcases execCommand_regs_cases c r with h | ⟨seed, -, h⟩ | ⟨P, -, h⟩ | ⟨-, h⟩ <;> rw [h]
  · exact hr
  · exact hinit seed
  · exact hadd _ P hr
  · exact hhash _ _ hr

theorem step_keeps (hinit : ∀ seed, J (scratchInit seed)) (hadd : ∀ q P, J q → J (absorb q P))
    (hhash : ∀ q h, J q → J { q with hash := h }) {s t : State} (hs : J (quadOf s.regs)) (h : step s = .next t) :
    J (quadOf t.regs) := by
  rcases step_regs_cases h with ⟨-, ht⟩ | ht | ⟨w, ws, P, -, ht⟩ <;> rw [ht]
  · exact hinit 0#32
  · exact hs
  · exact execCommand_keeps hinit hadd hhash _ _ hs

theorem reachable_has (hinit : ∀ seed, J (scratchInit seed)) (hadd : ∀ q P, J q → J (absorb q P))
    (hhash : ∀ q h, J q → J { q with hash := h }) {s : State} (h : Reachable s) : J (quadOf s.regs) := by
  induction h with
  | reset => exact hinit 0#32
  | step _ hst ih => exact step_keeps hinit hadd hhash ih hst
  | host a _ ih => rwa [hostAct_regs]

end Invariants

theorem tailInv_scratchInit (seed : Word) : TailInv (scratchInit seed) := rfl

theorem countInv_scratchInit (seed : Word) : CountInv (scratchInit seed) := rfl

/-! ### The statements -/

/-- Settles O3: a tail step keeps the bound on TAIL, so the phases of ADD, every command and every step do. -/
theorem tailInvariantIsInductive : Obligations.TailInvariantIsInductive := by
  refine ⟨fun s hs => ?_, fun s t hs h => ?_, fun q hq h0 => ?_⟩
  · exact reachable_has tailInv_scratchInit absorb_keeps_tailInv (fun _ _ hq => hq) hs
  · exact step_keeps tailInv_scratchInit absorb_keeps_tailInv (fun _ _ hq => hq) hs h
  · simpa [TailInv, h0] using hq

/-- Settles O4: ADD adds the same length to COUNT modulo 4 and to SIZE modulo 2^32. -/
theorem countInvariantIsInductive : Obligations.CountInvariantIsInductive := by
  refine ⟨fun s hs => (countInv_iff (quadOf s.regs)).1 ?_, fun s t hs h => ?_⟩
  · exact reachable_has countInv_scratchInit absorb_keeps_countInv (fun _ _ hq => hq) hs
  · exact step_keeps countInv_scratchInit absorb_keeps_countInv (fun _ _ hq => hq) hs h

/-- Settles O1: reset leaves FIN = 1, and what is fixed while FIN = 1 gives the rest. -/
theorem resetValuesAreUnobservableZeros : Obligations.ResetValuesAreUnobservableZeros := by
  refine ⟨rfl, fun s hs => ⟨resetEngine s, if_pos hs, rfl⟩, fun P => hasherAdd_finalized P _ rfl,
    hasherFinalize_finalized _ rfl, fun cs hcs => runCommands_finalized_regs cs _ rfl hcs,
    tailInv_scratchInit 0#32, countInv_scratchInit 0#32, fun cs r hr => ?_⟩
  exact runCommands_finalized_responses cs r _ hr rfl

/-- Settles O5: INIT starts the count at 0, and every command keeps SIZE equal to it. -/
theorem sizeCountsAcceptedBytes : Obligations.SizeCountsAcceptedBytes :=
  fun seed cs r => runCommands_size cs (hasherInit seed r).1 0 rfl

/-- Settles O6: a change of SEED passes through any commands as a change of SEED alone. -/
theorem seedRegisterIsUnobservable : Obligations.SeedRegisterIsUnobservable := by
  refine ⟨fun seed r => rfl, execCommand_seed, fun cs r x => ?_⟩
  obtain ⟨y, hy⟩ := runCommands_withSeed cs r x
  rw [hy]
  exact ⟨rfl, rfl⟩

/-- Settles O37: a step that changes a register of a finalized engine executes a command, and any but INIT would have
kept them. -/
theorem onlyInitLeavesFinalized : Obligations.OnlyInitLeavesFinalized := by
  refine ⟨fun c r hr hc => ?_, fun seed P r => rfl, fun s t hrst hfin h hne => ?_⟩
  · cases c with
    | init seed => cases hc
    | add P => exact hasherAdd_finalized P r hr
    | finalize => exact hasherFinalize_finalized r hr
    | hashOnce seed P => cases hc
  · rcases step_regs_cases h with ⟨h1, -⟩ | ht | ⟨w, ws, P, hw, ht⟩
    · rw [hrst] at h1; cases h1
    · exact absurd ht hne
    · have keeps (hc : isInit (commandOf (decode w) P) = false) : t.regs = s.regs := by
        obtain ⟨a, ha⟩ := execCommand_finalized _ hc
        rw [ht, ha _ hfin]
      cases hd : decode w with
      | init seed => exact ⟨w, ws, seed, hw, hd, by rw [ht, hd]; rfl⟩
      | add hb => exact absurd (keeps (by rw [hd]; rfl)) hne
      | finalize => exact absurd (keeps (by rw [hd]; rfl)) hne
      | hashOnce seed hb => exact absurd (keeps (by rw [hd]; rfl)) hne

end Sys2Proof.Proofs

/-! PROOFS. The family of 20_memory.md: reads of a payload at any index (R45) and the byte order of a word (R43). -/

namespace Sys2Proof.Proofs

open Sys2Proof.Machine Sys2Proof.Laws

/-! ### Reads behind a front part of the payload -/

@[simp] theorem memRead1_append_length_add (A P : List Byte) (i : Nat) :
    memRead1 (A ++ P) (A.length + i) = memRead1 P i := by
  rw [memRead1, List.getElem?_append_right (Nat.le_add_right ..), Nat.add_sub_cancel_left, memRead1]

/-- A word is read by place from where it starts, aligned or not (R45). -/
theorem memRead4_append_length_add (A P : List Byte) (i : Nat) :
    memRead4 (A ++ P) (A.length + i) = memRead4 P i := by
  simp only [memRead4, Nat.add_assoc, memRead1_append_length_add]

theorem memRead4_cons (b0 b1 b2 b3 : Byte) (B : List Byte) :
    memRead4 (b0 :: b1 :: b2 :: b3 :: B) 0 = some (leWord b0 b1 b2 b3) := rfl

/-! ### The bytes of a little-endian word -/

/-- Byte `j` of the word is the `j`-th of its four bytes: the digit of its value at base 256 (R43). -/
theorem leWord_extractLsb' (b0 b1 b2 b3 : Byte) :
    (leWord b0 b1 b2 b3).extractLsb' 0 8 = b0 ∧ (leWord b0 b1 b2 b3).extractLsb' 8 8 = b1 ∧
    (leWord b0 b1 b2 b3).extractLsb' 16 8 = b2 ∧ (leWord b0 b1 b2 b3).extractLsb' 24 8 = b3 := by
  simp only [← BitVec.toNat_inj, BitVec.extractLsb'_toNat, Nat.shiftRight_eq_div_pow, leWord_toNat]
  have h0 := b0.isLt
  have h1 := b1.isLt
  have h2 := b2.isLt
  have h3 := b3.isLt
  refine ⟨?_, ?_, ?_, ?_⟩ <;> omega

/-! ### The statement -/

/-- Settles O16: the read sees only the payload from its index on, and the word's value and bytes are those of
`leWord`. -/
theorem wordReadsAreLittleEndian : Obligations.WordReadsAreLittleEndian := by
  refine ⟨fun A B b0 b1 b2 b3 => ⟨leWord b0 b1 b2 b3, ?_, leWord_toNat b0 b1 b2 b3, leWord_extractLsb' b0 b1 b2 b3⟩,
    by decide⟩
  exact (memRead4_append_length_add A _ 0).trans (memRead4_cons b0 b1 b2 b3 B)

end Sys2Proof.Proofs

/-! PROOFS. The family of 30_encoding.md: command words and their fields (R63, R76, R79), beats and their lanes (R67,
R68), the payload of a list of beats (R69, R70), the canonical beats (R71), whole transactions (R79) and response words
(R72, R76). -/

namespace Sys2Proof.Proofs

open Sys2Proof.Machine Sys2Proof.Laws

/-! ### The command word -/

/-- Fields put side by side, as numbers. -/
theorem append_toNat {m n : Nat} (x : BitVec m) (y : BitVec n) : (x ++ y).toNat = x.toNat * 2 ^ n + y.toNat := by
  rw [BitVec.toNat_append, ← Nat.shiftLeft_add_eq_or_of_lt y.isLt, Nat.shiftLeft_eq]

/-- `CW = op * 2^33 + e * 2^32 + seed` (R63). -/
theorem cwMake_toNat (op : BitVec 2) (e : Bool) (seed : Word) :
    (cwMake op e seed).toNat = op.toNat * 2 ^ 33 + e.toNat * 2 ^ 32 + seed.toNat := by
  rw [cwMake, append_toNat, append_toNat, BitVec.toNat_ofBool, Nat.add_assoc]

/-- Every command word is made of its three fields, so decode is total (R63, R75). -/
theorem cwMake_fields (w : CmdWord) : cwMake (cwOp w) (cwE w) (cwSeed w) = w := by
  apply BitVec.eq_of_toNat_eq
  have hw := w.isLt
  rw [cwMake_toNat, cwE, ← BitVec.testBit_toNat, Nat.toNat_testBit, cwOp, cwSeed, BitVec.extractLsb'_toNat,
    BitVec.extractLsb'_toNat]
  simp only [Nat.shiftRight_eq_div_pow]
  omega

@[simp] theorem decode_encode (i : Instr) : decode (encode i) = i := by
  cases i <;> simp [encode, decode_cwMake]

/-! ### The data beat -/

/-- `DB = last * 2^34 + cnt * 2^32 + data`, the data given by its lanes (R67). -/
theorem beatMake_toNat (last : Bool) (cnt : BitVec 2) (l0 l1 l2 l3 : Byte) :
    (beatMake last cnt l0 l1 l2 l3).toNat = last.toNat * 2 ^ 34 + cnt.toNat * 2 ^ 32 + l3.toNat * 2 ^ 24 +
      l2.toNat * 2 ^ 16 + l1.toNat * 2 ^ 8 + l0.toNat := by
  simp only [beatMake, append_toNat, BitVec.toNat_ofBool]
  omega

section Fields

variable (last : Bool) (cnt : BitVec 2) (l0 l1 l2 l3 : Byte)

@[simp] theorem beatLast_make : beatLast (beatMake last cnt l0 l1 l2 l3) = last := by
  rw [beatLast, beatMake, BitVec.getLsbD_append]
  simp

@[simp] theorem beatCnt_make : beatCnt (beatMake last cnt l0 l1 l2 l3) = cnt := by
  apply BitVec.eq_of_toNat_eq
  rw [beatCnt, BitVec.extractLsb'_toNat, Nat.shiftRight_eq_div_pow, beatMake_toNat]
  omega

/-- Lane `j` of a beat is the `j`-th of the bytes it was made of (R67). -/
theorem beatLane_make {j : Nat} (hj : j < 4) :
    beatLane (beatMake last cnt l0 l1 l2 l3) j = [l0, l1, l2, l3].getD j 0#8 := by
  apply BitVec.eq_of_toNat_eq
  rw [beatLane, BitVec.extractLsb'_toNat, Nat.shiftRight_eq_div_pow, beatMake_toNat]
  interval_cases j <;> simp <;> omega

end Fields

/-- A beat carries its lanes `0` to `cnt`, in that order (R68). -/
theorem beatBytes_eq_map_lanes (b : Beat) : beatBytes b = (List.range ((beatCnt b).toNat + 1)).map (beatLane b) := by
  have hcnt : (beatCnt b).toNat + 1 ≤ 4 := (beatCnt b).isLt
  calc beatBytes b = ((List.range 4).map (beatLane b)).take ((beatCnt b).toNat + 1) := rfl
    _ = _ := by rw [← List.map_take, List.take_range, Nat.min_eq_left hcnt]

@[simp] theorem beatBytes_length (b : Beat) : (beatBytes b).length = (beatCnt b).toNat + 1 := by
  simp [beatBytes_eq_map_lanes]

theorem memRead1_beatBytes (b : Beat) (j : Nat) (hj : j ≤ (beatCnt b).toNat) :
    memRead1 (beatBytes b) j = some (beatLane b j) := by
  simp [memRead1, beatBytes_eq_map_lanes, Nat.lt_succ_of_le hj]

/-- The lanes above `cnt`, and `last`, are no part of a beat's bytes (R68). -/
theorem beatBytes_congr {b b' : Beat} (hcnt : beatCnt b' = beatCnt b)
    (hlane : ∀ j, j ≤ (beatCnt b).toNat → beatLane b' j = beatLane b j) : beatBytes b' = beatBytes b := by
  rw [beatBytes_eq_map_lanes, beatBytes_eq_map_lanes, hcnt]
  exact List.map_congr_left fun j hj => hlane j (Nat.le_of_lt_succ (List.mem_range.1 hj))

/-- The data field is the little-endian word of the four lanes (R43, R67). -/
theorem leWord_lanes (b : Beat) :
    leWord (beatLane b 0) (beatLane b 1) (beatLane b 2) (beatLane b 3) = b.extractLsb' 0 32 := by
  apply BitVec.eq_of_toNat_eq
  rw [leWord_toNat]
  simp only [beatLane, BitVec.extractLsb'_toNat, Nat.shiftRight_eq_div_pow]
  omega

theorem beatBytes_full {b : Beat} (h : beatCnt b = 3#2) :
    beatBytes b = [beatLane b 0, beatLane b 1, beatLane b 2, beatLane b 3] := by
  rw [beatBytes, h]; rfl

/-! ### The payload of a list of beats -/

/-- One payload's `last` bits: a lone final one, or a 0 before a payload's (R69). -/
theorem framed_cons_iff (l : Bool) (ls : List Bool) :
    framed (l :: ls) = true ↔ (l = true ∧ ls = []) ∨ (l = false ∧ framed ls = true) := by
  cases ls <;> cases l <;> simp [framed]

theorem take_cons_last {b : Beat} (h : beatLast b = true) (bs : List Beat) : take (b :: bs) = some (beatBytes b, 1) := by
  rw [take, if_pos h]

/-- A beat with `last = 0` puts its bytes before the payload of the beats behind it (R70). -/
theorem take_cons_not_last {b : Beat} (h : beatLast b = false) (bs : List Beat) :
    take (b :: bs) = (take bs).map fun x => (beatBytes b ++ x.1, x.2 + 1) := by
  rw [take, h, if_neg Bool.false_ne_true]
  cases take bs <;> rfl

theorem take_framed_append (bs rest : List Beat) (h : framed (bs.map beatLast) = true) :
    take (bs ++ rest) = some ((bs.map beatBytes).flatten, bs.length) := by
  induction bs with
  | nil => cases h
  | cons b bs ih =>
    rcases (framed_cons_iff ..).1 h with ⟨hlast, hnil⟩ | ⟨hlast, hbs⟩
    · obtain rfl : bs = [] := List.map_eq_nil_iff.1 hnil
      simp [take_cons_last hlast]
    · simp [take_cons_not_last hlast, ih hbs]

/-- Whatever is taken is one framed payload at the front of the channel (R69). -/
theorem take_eq_some {D : List Beat} {P : List Byte} {n : Nat} (h : take D = some (P, n)) :
    framed ((D.take n).map beatLast) = true ∧ P = ((D.take n).map beatBytes).flatten ∧ n ≤ D.length := by
  induction D generalizing P n with
  | nil => cases h
  | cons b bs ih =>
    cases hlast : beatLast b with
    | true =>
      rw [take_cons_last hlast] at h
      cases h
      simp [framed, hlast]
    | false =>
      rw [take_cons_not_last hlast, Option.map_eq_some_iff] at h
      obtain ⟨⟨Q, m⟩, hbs, hx⟩ := h
      cases hx
      obtain ⟨hframed, hbytes, hlength⟩ := ih hbs
      simp only [List.take_succ_cons, List.map_cons, List.flatten_cons, List.length_cons, framed_cons_iff, hlast, hframed,
        ← hbytes, Nat.succ_le_succ hlength, and_self, or_true]

theorem take_eq_none_iff (D : List Beat) : take D = none ↔ ∀ b ∈ D, beatLast b = false := by
  induction D with
  | nil => simp [take]
  | cons b bs ih =>
    cases hlast : beatLast b with
    | true => simp [take_cons_last hlast, hlast]
    | false => simp [take_cons_not_last hlast, hlast, ih]

/-- A beat carries one to four bytes (R68), so `n` beats carry `n` to `4 * n`. -/
theorem beatBytes_flatten_length (bs : List Beat) :
    bs.length ≤ (bs.map beatBytes).flatten.length ∧ (bs.map beatBytes).flatten.length ≤ 4 * bs.length := by
  induction bs with
  | nil => simp
  | cons b bs ih =>
    have hcnt := (beatCnt b).isLt
    simp only [List.map_cons, List.flatten_cons, List.length_append, List.length_cons, beatBytes_length]
    omega

/-! ### The canonical beats of a payload -/

/-- Induction along the canonical form: one final beat of one to four bytes, or a full beat before a nonempty payload
(R71). -/
theorem payload_induction {J : (P : List Byte) → P ≠ [] → Prop}
    (final : ∀ (P : List Byte) (h : P ≠ []), P.length ≤ 4 → J P h)
    (full : ∀ (a b c d : Byte) (P : List Byte) (h : P ≠ []), J P h →
      J (a :: b :: c :: d :: P) (List.cons_ne_nil a (b :: c :: d :: P))) :
    ∀ (P : List Byte) (h : P ≠ []), J P h
  | [], h => absurd rfl h
  | [_], h => final _ h (by simp)
  | [_, _], h => final _ h (by simp)
  | [_, _, _], h => final _ h (by simp)
  | [_, _, _, _], h => final _ h (by simp)
  | a :: b :: c :: d :: e :: P, _ =>
    full a b c d (e :: P) (List.cons_ne_nil e P) (payload_induction final full (e :: P) (List.cons_ne_nil e P))

/-- The final beat: `last = 1`, `cnt` one less than its bytes, unused lanes 0 (R71). -/
def finalBeat (P : List Byte) : Beat :=
  beatMake true (BitVec.ofNat 2 (P.length - 1)) (P.getD 0 0#8) (P.getD 1 0#8) (P.getD 2 0#8) (P.getD 3 0#8)

theorem canonicalBeats_final : ∀ P : List Byte, P ≠ [] → P.length ≤ 4 → canonicalBeats P = [finalBeat P]
  | [], h, _ => absurd rfl h
  | [_], _, _ => rfl
  | [_, _], _, _ => rfl
  | [_, _, _], _, _ => rfl
  | [_, _, _, _], _, _ => rfl

theorem canonicalBeats_full (a b c d : Byte) {P : List Byte} (h : P ≠ []) :
    canonicalBeats (a :: b :: c :: d :: P) = beatMake false 3#2 a b c d :: canonicalBeats P := by
  rw [canonicalBeats, List.isEmpty_eq_false_iff.2 h]

section FinalBeat

variable {P : List Byte}

theorem beatLast_finalBeat : beatLast (finalBeat P) = true := beatLast_make ..

theorem beatLane_finalBeat {j : Nat} (hj : j < 4) : beatLane (finalBeat P) j = P.getD j 0#8 := by
  rw [finalBeat, beatLane_make _ _ _ _ _ _ hj]
  interval_cases j <;> rfl

theorem beatCnt_finalBeat (h4 : P.length ≤ 4) : (beatCnt (finalBeat P)).toNat = P.length - 1 := by
  rw [finalBeat, beatCnt_make, BitVec.toNat_ofNat]
  omega

theorem beatBytes_finalBeat (h : P ≠ []) (h4 : P.length ≤ 4) : beatBytes (finalBeat P) = P := by
  have hpos := List.length_pos_iff.2 h
  have hlength : (beatBytes (finalBeat P)).length = P.length := by
    rw [beatBytes_length, beatCnt_finalBeat h4]
    omega
  refine List.ext_getElem? fun j => ?_
  by_cases hj : j < P.length
  · have hlane := memRead1_beatBytes (finalBeat P) j (by rw [beatCnt_finalBeat h4]; omega)
    rw [memRead1, beatLane_finalBeat (by omega)] at hlane
    rw [hlane, List.getD_eq_getElem _ _ hj, List.getElem?_eq_getElem hj]
  · rw [List.getElem?_eq_none (by omega), List.getElem?_eq_none (by omega)]

end FinalBeat

theorem canonicalBeats_framed (P : List Byte) (h : P ≠ []) : framed ((canonicalBeats P).map beatLast) = true := by
  induction P, h using payload_induction with
  | final P h h4 => rw [canonicalBeats_final P h h4]; exact beatLast_finalBeat
  | full a b c d P hP ih => rw [canonicalBeats_full a b c d hP]; simp [framed_cons_iff, ih]

theorem canonicalBeats_bytes (P : List Byte) (h : P ≠ []) : ((canonicalBeats P).map beatBytes).flatten = P := by
  induction P, h using payload_induction with
  | final P h h4 => simp [canonicalBeats_final P h h4, beatBytes_finalBeat h h4]
  | full a b c d P hP ih =>
    simp [canonicalBeats_full a b c d hP, ih, beatBytes_full, beatLane_make]

/-- `ceil(n / 4)` beats (R71). -/
theorem canonicalBeats_length (P : List Byte) (h : P ≠ []) : (canonicalBeats P).length = (P.length + 3) / 4 := by
  induction P, h using payload_induction with
  | final P h h4 =>
    have hpos := List.length_pos_iff.2 h
    rw [canonicalBeats_final P h h4, List.length_singleton]
    omega
  | full a b c d P hP ih =>
    simp only [canonicalBeats_full a b c d hP, ih, List.length_cons]
    omega

theorem canonicalBeats_ne_nil (P : List Byte) (h : P ≠ []) : canonicalBeats P ≠ [] := by
  intro hnil
  have hframed := canonicalBeats_framed P h
  rw [hnil] at hframed
  cases hframed

theorem canonicalBeats_dropLast_full (P : List Byte) (h : P ≠ []) :
    ∀ b ∈ (canonicalBeats P).dropLast, beatCnt b = 3#2 := by
  induction P, h using payload_induction with
  | final P h h4 => simp [canonicalBeats_final P h h4]
  | full a b c d P hP ih =>
    rw [canonicalBeats_full a b c d hP, List.dropLast_cons_of_ne_nil (canonicalBeats_ne_nil P hP)]
    exact List.forall_mem_cons.2 ⟨beatCnt_make .., ih⟩

theorem canonicalBeats_getLast_cnt (P : List Byte) (h : P ≠ []) :
    (canonicalBeats P).getLast?.map (fun b => (beatCnt b).toNat) = some ((P.length - 1) % 4) := by
  induction P, h using payload_induction with
  | final P h h4 =>
    have hpos := List.length_pos_iff.2 h
    simp only [canonicalBeats_final P h h4, List.getLast?_singleton, Option.map_some, beatCnt_finalBeat h4]
    congr 1
    omega
  | full a b c d P hP ih =>
    have hpos := List.length_pos_iff.2 hP
    have hmod : (P.length + 4 - 1) % 4 = (P.length - 1) % 4 := by omega
    rw [canonicalBeats_full a b c d hP, List.getLast?_cons_of_ne_nil (canonicalBeats_ne_nil P hP), ih, ← hmod]
    rfl

/-- A lane past the end of the payload is 0 (R71). -/
theorem canonicalBeats_unused_lane (P : List Byte) (h : P ≠ []) :
    ∀ t j b, (canonicalBeats P)[t]? = some b → j < 4 → P.length ≤ 4 * t + j → beatLane b j = 0#8 := by
  induction P, h using payload_induction with
  | final P h h4 =>
    intro t j b hb hj hlen
    rw [canonicalBeats_final P h h4, List.getElem?_singleton] at hb
    split at hb
    next ht =>
      cases hb
      subst ht
      rw [beatLane_finalBeat hj, List.getD_eq_default _ _ (by omega)]
    next => cases hb
  | full a b c d P hP ih =>
    intro t j x hx hj hlen
    rw [List.length_cons, List.length_cons, List.length_cons, List.length_cons] at hlen
    rw [canonicalBeats_full a b c d hP] at hx
    cases t with
    | zero => have hpos := List.length_pos_iff.2 hP; omega
    | succ t => exact ih t j x hx hj (by omega)

/-! ### Whole transactions -/

theorem nextCommand_without_beats {w : CmdWord} (h : needsBeats (decode w) = false) (D : List Beat) :
    nextCommand w D = some (commandOf (decode w) [], D) := by
  simp [nextCommand, h]

theorem nextCommand_with_beats {w : CmdWord} (h : needsBeats (decode w) = true) (D : List Beat) :
    nextCommand w D = (take D).map fun x => (commandOf (decode w) x.1, D.drop x.2) := by
  rw [nextCommand, if_pos h]
  cases take D <;> rfl

/-- `e = 0` exactly for a nonempty payload (R79). -/
theorem needsBeats_instrOf (c : Command) : needsBeats (instrOf c) = !(payloadOf c).isEmpty := by
  cases c <;> rfl

theorem commandOf_instrOf (c : Command) : commandOf (instrOf c) (payloadOf c) = c := by
  cases c <;> rfl

/-- A transaction is read back from its canonical encoding, and the beats behind it are left (R79). -/
theorem nextCommand_encodeCommand (c : Command) (rest : List Beat) :
    nextCommand (encodeCommand c).1 ((encodeCommand c).2 ++ rest) = some (c, rest) := by
  have hdecode : decode (encodeCommand c).1 = instrOf c := decode_encode _
  have hbeats := needsBeats_instrOf c
  rw [← hdecode] at hbeats
  by_cases hP : payloadOf c = []
  · rw [nextCommand_without_beats (by rw [hbeats, hP]; rfl), hdecode, ← hP, commandOf_instrOf, encodeCommand, hP]
    rfl
  · have htake := take_framed_append _ rest (canonicalBeats_framed _ hP)
    rw [canonicalBeats_bytes _ hP] at htake
    rw [nextCommand_with_beats (by rw [hbeats, List.isEmpty_eq_false_iff.2 hP]; rfl), hdecode]
    simp [encodeCommand, htake, commandOf_instrOf]

theorem encodeCommand_add {P : List Byte} (h : P ≠ []) :
    encodeCommand (.add P) = (0x200000000#35, canonicalBeats P) := by
  rw [encodeCommand, instrOf, List.isEmpty_eq_false_iff.2 h]
  rfl

theorem encodeCommand_hashOnce (s : Word) {P : List Byte} (h : P ≠ []) :
    encodeCommand (.hashOnce s P) = (cwMake 3#2 false s, canonicalBeats P) := by
  rw [encodeCommand, instrOf, List.isEmpty_eq_false_iff.2 h]
  rfl

/-- The seed adds to the word of opcode and `e` alone, as R79 writes the canonical words. -/
theorem cwMake_eq_add (op : BitVec 2) (e : Bool) (s : Word) :
    cwMake op e s = cwMake op e 0#32 + s.setWidth 35 := by
  apply BitVec.eq_of_toNat_eq
  have hs := s.isLt
  have hop := op.isLt
  have he := e.toNat_lt
  rw [BitVec.toNat_add, cwMake_toNat, cwMake_toNat, BitVec.toNat_setWidth, BitVec.toNat_ofNat]
  omega

/-! ### The response word -/

section Responses

variable {op : BitVec 2} {w : RspWord}

theorem decodeResponse_error (h : w.getLsbD 32 = true) : decodeResponse op w = .errInvalidState := if_pos h

theorem decodeResponse_ok (h : w.getLsbD 32 = false) (hop : op = 0#2 ∨ op = 1#2) : decodeResponse op w = .ok := by
  rw [decodeResponse, h, if_neg Bool.false_ne_true, if_pos hop]

theorem decodeResponse_okHash (h : w.getLsbD 32 = false) (hop : op = 2#2 ∨ op = 3#2) :
    decodeResponse op w = .okHash (w.extractLsb' 0 32) := by
  have hother : ¬ (op = 0#2 ∨ op = 1#2) := by
    rcases hop with rfl | rfl <;> decide
  rw [decodeResponse, h, if_neg Bool.false_ne_true, if_neg hother]

theorem encodeResponse_okHash (h : Word) : encodeResponse (.okHash h) = h.setWidth 33 := by
  apply BitVec.eq_of_toNat_eq
  have hh := h.isLt
  rw [encodeResponse, append_toNat, BitVec.toNat_setWidth, BitVec.toNat_ofNat]
  omega

theorem decodeResponse_encode_error : decodeResponse op (encodeResponse .errInvalidState) = .errInvalidState :=
  decodeResponse_error rfl

theorem decodeResponse_encode_ok (hop : op = 0#2 ∨ op = 1#2) : decodeResponse op (encodeResponse .ok) = .ok :=
  decodeResponse_ok rfl hop

theorem decodeResponse_encode_okHash (hop : op = 2#2 ∨ op = 3#2) (h : Word) :
    decodeResponse op (encodeResponse (.okHash h)) = .okHash h := by
  rw [encodeResponse_okHash, decodeResponse_okHash (by simp) hop]
  congr 1
  apply BitVec.eq_of_toNat_eq
  simp [BitVec.extractLsb'_toNat, h.isLt]

end Responses

/-! ### The statements -/

/-- Settles O12: the fields come back from a word made of them, and every word is made of its fields. -/
theorem decodeFollowsItsFunction : Obligations.DecodeFollowsItsFunction := by
  refine ⟨fun e seed => ?_, fun w => (cwMake_fields w).symm, fun op w => ?_⟩
  · simp [decode_cwMake]
  · exact ⟨decodeResponse_error, decodeResponse_ok, decodeResponse_okHash⟩

/-- Settles O14: the bytes of a beat are a function of `cnt` and of the lanes up to it. -/
theorem beatCarriesItsLowLanes : Obligations.BeatCarriesItsLowLanes := by
  refine fun b => ⟨beatBytes_length b, memRead1_beatBytes b, fun b' => beatBytes_congr, fun hfull => ?_⟩
  rw [beatBytes_full hfull, memRead4_cons, leWord_lanes]

/-- Settles O15: by induction on the beats, a framed list is taken whole and nothing else is. -/
theorem payloadAssembly : Obligations.PayloadAssembly := by
  refine ⟨take_framed_append, fun D P n h => ?_, take_eq_none_iff, fun e seed D => ?_, fun seed D => ?_⟩
  · obtain ⟨hframed, hbytes, hn⟩ := take_eq_some h
    have hlength := beatBytes_flatten_length (D.take n)
    rw [← hbytes, List.length_take_of_le hn] at hlength
    exact ⟨hframed, hbytes, hn, hlength⟩
  · simp [nextCommand_without_beats, decode_cwMake, needsBeats, commandOf]
  · constructor
    · intro P n h
      simp [nextCommand_with_beats, decode_cwMake, needsBeats, commandOf, h]
    · intro h
      simp [nextCommand_with_beats, decode_cwMake, needsBeats, h]

/-- Settles O17: by induction along the canonical form, full beats before a final one. -/
theorem canonicalBeatsCarryThePayload : Obligations.CanonicalBeatsCarryThePayload :=
  ⟨fun P h => ⟨canonicalBeats_framed P h, canonicalBeats_bytes P h, canonicalBeats_length P h,
    canonicalBeats_dropLast_full P h, canonicalBeats_getLast_cnt P h, canonicalBeats_unused_lane P h⟩, by decide⟩

/-- Settles O18: INIT and ADD answer no hash, FINALIZE and HASH_ONCE no `Ok`, and the error shows in its own bit. -/
theorem responsesReadBackFromTheWire : Obligations.ResponsesReadBackFromTheWire := by
  refine ⟨rfl, rfl, encodeResponse_okHash, rfl, fun c r => ?_⟩
  cases c with
  | init seed => exact decodeResponse_encode_ok (.inl rfl)
  | hashOnce seed P => exact decodeResponse_encode_okHash (.inr rfl) _
  | add P =>
    rcases fin_cases r with h | h
    · rw [execCommand, hasherAdd_finalized P r h]; exact decodeResponse_encode_error
    · rw [execCommand, hasherAdd_active P r h]; exact decodeResponse_encode_ok (.inr rfl)
  | finalize =>
    rcases fin_cases r with h | h
    · rw [execCommand, hasherFinalize_finalized r h]; exact decodeResponse_encode_error
    · rw [execCommand, hasherFinalize_active r h]; exact decodeResponse_encode_okHash (.inl rfl) _

/-- Settles O9: a canonical word decodes to its command, and the canonical beats are taken as its payload. -/
theorem transactionRoundTrip : Obligations.TransactionRoundTrip := by
  refine ⟨fun s => ?_, rfl, fun P => encodeCommand_add, rfl, fun s => ?_, fun s P h => ?_, nextCommand_encodeCommand,
    fun w => ⟨fun h => ⟨decode w, h.symm⟩, ?_⟩⟩
  · exact Prod.ext ((cwMake_eq_add 0#2 false s).trans (BitVec.zero_add _)) rfl
  · exact Prod.ext (cwMake_eq_add 3#2 true s) rfl
  · rw [encodeCommand_hashOnce s h]
    exact Prod.ext (cwMake_eq_add 3#2 false s) rfl
  · rintro ⟨i, rfl⟩
    rw [decode_encode]

end Sys2Proof.Proofs

/-! PROOFS. The family of 40_mixer.md: the definition of `mix` and its example (R90). -/

namespace Sys2Proof.Proofs

open Sys2Proof.Machine Sys2Proof.Laws

/-- The three stages of the chunk's scrambling, `k1`, `k2` and `k3` of R90, in one term. -/
theorem mixChunk_eq (k : Word) :
    mixChunk k = Config.M * (Config.M * k ^^^ (Config.M * k) >>> Config.R) := rfl

theorem mix_eq_xor_mixChunk (h k : Word) : mix h k = Config.M * h ^^^ mixChunk k := rfl

/-- The chunk `"test"` through the stages, with the values of `k1`, `k2` and `k3` that R90 gives. -/
theorem mixChunk_of_test : mixChunk 0x74736574#32 = 0x220D3E62#32 := by
  have hk1 : Config.M * 0x74736574#32 = 0xDE34A084#32 := by decide
  have hk2 : 0xDE34A084#32 ^^^ 0xDE34A084#32 >>> Config.R = 0xDE34A05A#32 := by decide
  have hk3 : Config.M * 0xDE34A05A#32 = 0x220D3E62#32 := by decide
  rw [mixChunk_eq, hk1, hk2, hk3]

/-- The hash 0 leaves the scrambled chunk alone (R93 (c)). -/
@[simp] theorem mix_zero_left (k : Word) : mix 0#32 k = mixChunk k := by
  rw [mix_eq_xor_mixChunk, BitVec.mul_zero, BitVec.zero_xor]

/-- Settles O19: the stages of `mix` put together, and its example as the chunk `"test"` folded into the hash 0. -/
theorem mixFollowsItsDefinition : Obligations.MixFollowsItsDefinition := by
  refine ⟨fun h k => ?_, ?_⟩
  · rw [mix_eq_xor_mixChunk, mixChunk_eq, Config.M, Config.R]
  · rw [mix_zero_left, mixChunk_of_test]

end Sys2Proof.Proofs

/-! PROOFS. The family of 41_hasher_fsm.md, the finishing step: its stages are bijections (R106). -/

namespace Sys2Proof.Proofs

open Sys2Proof.Machine Sys2Proof.Laws

/-- A word that a right shift leaves as it is has no bit. -/
theorem eq_zero_of_eq_ushiftRight {w s : Nat} (hs : 0 < s) {d : BitVec w} (h : d = d >>> s) : d = 0#w := by
  have hdiv : d.toNat = d.toNat / 2 ^ s := by
    rw [← Nat.shiftRight_eq_div_pow, ← BitVec.toNat_ushiftRight, ← h]
  by_contra hne
  have hpos : 0 < d.toNat := Nat.pos_of_ne_zero fun h0 => hne (BitVec.eq_of_toNat_eq h0)
  have hlt := Nat.div_lt_self hpos (Nat.one_lt_two_pow hs.ne')
  omega

/-- Two xorshifts differ by the xorshift of the words' difference, and that is 0 for the difference 0 alone. -/
theorem xor_ushiftRight_bijective {w s : Nat} (hs : 0 < s) :
    Function.Bijective fun x : BitVec w => x ^^^ (x >>> s) := by
  refine Finite.injective_iff_bijective.1 fun x y h => BitVec.xor_eq_zero_iff.1 (eq_zero_of_eq_ushiftRight hs ?_)
  rw [BitVec.ushiftRight_xor_distrib, ← BitVec.xor_eq_zero_iff]
  calc (x ^^^ y) ^^^ (x >>> s ^^^ y >>> s)
      = (x ^^^ x >>> s) ^^^ (y ^^^ y >>> s) := by ac_rfl
    _ = 0#w := BitVec.xor_eq_zero_iff.2 h

/-- The inverse of the odd constant `M` modulo 2^32. -/
def inverseM : Word := 0xE59B19BD#32

theorem inverseM_mul_M : inverseM * Config.M = 1#32 := by decide

theorem mul_M_bijective : Function.Bijective fun h : Word => Config.M * h := by
  refine Function.bijective_iff_has_inverse.2 ⟨fun h => inverseM * h, fun h => ?_, fun h => ?_⟩
  · change inverseM * (Config.M * h) = h
    rw [← BitVec.mul_assoc, inverseM_mul_M, BitVec.one_mul]
  · change Config.M * (inverseM * h) = h
    rw [← BitVec.mul_assoc, BitVec.mul_comm Config.M, inverseM_mul_M, BitVec.one_mul]

/-- `fmix` is its three stages one after the other (R106). -/
theorem fmix_eq_stages : fmix =
    (fun h : Word => h ^^^ (h >>> Config.S2)) ∘ (fun h : Word => Config.M * h) ∘
      (fun h : Word => h ^^^ (h >>> Config.S1)) := rfl

theorem fmix_bijective : Function.Bijective fmix := by
  rw [fmix_eq_stages]
  exact (xor_ushiftRight_bijective (by decide)).comp
    (mul_M_bijective.comp (xor_ushiftRight_bijective (by decide)))

/-- The finishing step on the example of R106. -/
theorem fmix_example : fmix 0x99174785#32 = 0x3D31CCC8#32 := by decide

/-- Settles O21: no difference but 0 survives an xorshift as 0, and `M` is odd. -/
theorem finishingStepIsABijection : Obligations.FinishingStepIsABijection :=
  ⟨fun _ => rfl, by decide, xor_ushiftRight_bijective (by decide), mul_M_bijective,
    xor_ushiftRight_bijective (by decide), fmix_bijective, fmix_example⟩

end Sys2Proof.Proofs

/-! PROOFS. The family of 41_hasher_fsm.md, absorbing: tail steps in a row (R101), the phases of ADD and what they
consume (R103 to R105), and that absorbing is byte-serial (R107), with its closed form (R108). -/

namespace Sys2Proof.Proofs

open Sys2Proof.Machine Sys2Proof.Laws

/-! ### Words without a common bit -/

/-- A word below bit `k` and a word shifted by `k` have no common bit. -/
theorem and_shiftLeft_eq_zero {w k : Nat} {x : BitVec w} (h : x >>> k = 0#w) (y : BitVec w) : x &&& y <<< k = 0#w := by
  refine BitVec.eq_of_getLsbD_eq fun i hi => ?_
  by_cases hk : i < k
  · simp [hk]
  · have hbit : (x >>> k).getLsbD (i - k) = false := by simp [h]
    rw [BitVec.getLsbD_ushiftRight, Nat.add_sub_cancel' (Nat.le_of_not_lt hk)] at hbit
    simp [hbit]

theorem or_eq_xor_of_and_eq_zero {w : Nat} {x y : BitVec w} (h : x &&& y = 0#w) : x ||| y = x ^^^ y := by
  refine BitVec.eq_of_getLsbD_eq fun i hi => ?_
  have hbit : (x &&& y).getLsbD i = false := by simp [h]
  rw [BitVec.getLsbD_and] at hbit
  rw [BitVec.getLsbD_or, BitVec.getLsbD_xor]
  revert hbit
  cases x.getLsbD i <;> cases y.getLsbD i <;> decide

theorem zext32_ushiftRight (b : Byte) : zext32 b >>> 8 = 0#32 := by
  apply BitVec.eq_of_toNat_eq
  have hb := b.isLt
  rw [zext32, BitVec.toNat_ushiftRight, BitVec.toNat_setWidth, Nat.shiftRight_eq_div_pow, BitVec.toNat_ofNat]
  omega

/-! ### Bytes packed into a word -/

@[simp] theorem packSum_nil : packSum [] = 0#32 := rfl

theorem packSum_cons (b : Byte) (bs : List Byte) : packSum (b :: bs) = zext32 b ||| packSum bs <<< 8 :=
  BitVec.add_eq_or_of_and_eq_zero _ _ (and_shiftLeft_eq_zero (zext32_ushiftRight b) _)

/-- A byte and then more bytes, placed above the pending ones (R101). -/
theorem or_packSum_cons (t : Word) (b : Byte) (bs : List Byte) (c : Nat) :
    t ||| packSum (b :: bs) <<< (8 * c) = t ||| zext32 b <<< (8 * c) ||| packSum bs <<< (8 * (c + 1)) := by
  rw [packSum_cons, BitVec.shiftLeft_or_distrib, ← BitVec.shiftLeft_add, BitVec.or_assoc, Nat.mul_add,
    Nat.add_comm (8 * c)]

theorem packSum_word (b0 b1 b2 b3 : Byte) : packSum [b0, b1, b2, b3] = leWord b0 b1 b2 b3 := by
  simp [packSum_cons, leWord, BitVec.shiftLeft_or_distrib, ← BitVec.shiftLeft_add, BitVec.or_assoc]

/-- The bytes of a word of at most `c` bytes, packed again (R22). -/
theorem packSum_bytes (c : Nat) (t : Word) (h : t >>> (8 * c) = 0#32) :
    packSum ((List.range c).map fun j => t.extractLsb' (8 * j) 8) = t := by
  induction c generalizing t with
  | zero => simpa using h.symm
  | succ c ih =>
    have hbyte (j : Nat) : t.extractLsb' (8 * (j + 1)) 8 = (t >>> 8).extractLsb' (8 * j) 8 := by
      apply BitVec.eq_of_toNat_eq
      rw [BitVec.extractLsb'_toNat, BitVec.extractLsb'_toNat, BitVec.toNat_ushiftRight, ← Nat.shiftRight_add,
        Nat.mul_add, Nat.add_comm (8 * j)]
    have hrest := ih (t >>> 8) (by rw [← BitVec.shiftRight_add, ← h, Nat.mul_add, Nat.add_comm (8 * c)])
    simp only [List.range_succ_eq_map, List.map_cons, List.map_map, Function.comp_def, Nat.succ_eq_add_one, hbyte,
      packSum, hrest]
    apply BitVec.eq_of_toNat_eq
    have ht := t.isLt
    simp only [zext32, BitVec.toNat_add, BitVec.toNat_setWidth, BitVec.extractLsb'_toNat, BitVec.toNat_shiftLeft,
      BitVec.toNat_ushiftRight, Nat.shiftLeft_eq, Nat.shiftRight_eq_div_pow]
    omega

/-! ### Tail steps in a row -/

theorem count_add_one_toNat {c : BitVec 2} (h : c ≠ 3#2) : (c + 1#2).toNat = c.toNat + 1 := by
  revert c; decide

theorem count_eq_three_iff (c : BitVec 2) : c = 3#2 ↔ c.toNat = 3 := by
  revert c; decide

/-- Tail steps that do not complete a word put their bytes above the pending ones and mix nothing (R101). -/
theorem foldl_tailStep_short (q : Quad) (P : List Byte) (h : q.count.toNat + P.length < 4) :
    P.foldl tailStep q =
      { q with
        tail := q.tail ||| packSum P <<< (8 * q.count.toNat)
        count := q.count + BitVec.ofNat 2 P.length } := by
  induction P generalizing q with
  | nil => simp
  | cons b bs ih =>
    rw [List.length_cons] at h
    have h3 : q.count ≠ 3#2 := by rw [Ne, count_eq_three_iff]; omega
    have hlen : BitVec.ofNat 2 (bs.length + 1) = 1#2 + BitVec.ofNat 2 bs.length := by
      rw [Nat.add_comm, BitVec.ofNat_add]
    rw [List.foldl_cons, tailStep_of_not_three q b h3, ih _ (by simp only [count_add_one_toNat h3]; omega)]
    simp only [count_add_one_toNat h3, or_packSum_cons, List.length_cons, hlen, BitVec.add_assoc]

/-- Tail steps that complete a word mix it once and leave no byte pending (R101). -/
theorem foldl_tailStep_completes (q : Quad) (P : List Byte) (h : q.count.toNat + P.length = 4) :
    P.foldl tailStep q =
      { q with
        hash := mix q.hash (q.tail ||| packSum P <<< (8 * q.count.toNat))
        tail := 0#32
        count := 0#2 } := by
  induction P generalizing q with
  | nil =>
    have hc := q.count.isLt
    rw [List.length_nil] at h
    omega
  | cons b bs ih =>
    rw [List.length_cons] at h
    rw [List.foldl_cons, or_packSum_cons]
    by_cases h3 : q.count = 3#2
    · have hc := (count_eq_three_iff _).1 h3
      obtain rfl : bs = [] := List.length_eq_zero_iff.1 (by omega)
      rw [tailStep_of_three q b h3, hc]
      simp
    · rw [tailStep_of_not_three q b h3, ih _ (by simp only [count_add_one_toNat h3]; omega)]
      simp only [count_add_one_toNat h3]

/-- With no byte pending, four tail steps are a word step (R107). -/
theorem foldl_tailStep_word (q : Quad) (b0 b1 b2 b3 : Byte) (hcount : q.count = 0#2) (htail : q.tail = 0#32) :
    [b0, b1, b2, b3].foldl tailStep q = wordStep q (leWord b0 b1 b2 b3) := by
  rw [foldl_tailStep_completes q _ (by rw [hcount]; rfl), packSum_word, hcount, htail]
  obtain ⟨hash, tail, count, size⟩ := q
  cases hcount
  cases htail
  simp [wordStep]

/-! ### BULK -/

/-- Induction by whole words: fewer than four bytes, or four bytes before the rest (R104). -/
theorem bytes_induction {J : List Byte → Prop} (short : ∀ P, P.length < 4 → J P)
    (word : ∀ b0 b1 b2 b3 P, J P → J (b0 :: b1 :: b2 :: b3 :: P)) : ∀ P, J P
  | b0 :: b1 :: b2 :: b3 :: P => word b0 b1 b2 b3 P (bytes_induction short word P)
  | [] => short _ (by simp)
  | [_] => short _ (by simp)
  | [_, _] => short _ (by simp)
  | [_, _, _] => short _ (by simp)

theorem fullWords_short : ∀ {P : List Byte}, P.length < 4 → fullWords P = []
  | [], _ => rfl
  | [_], _ => rfl
  | [_, _], _ => rfl
  | [_, _, _], _ => rfl
  | _ :: _ :: _ :: _ :: P, h => by simp only [List.length_cons] at h; omega

theorem leftover_short : ∀ {P : List Byte}, P.length < 4 → leftover P = P
  | [], _ => rfl
  | [_], _ => rfl
  | [_, _], _ => rfl
  | [_, _, _], _ => rfl
  | _ :: _ :: _ :: _ :: P, h => by simp only [List.length_cons] at h; omega

theorem bulk_short (q : Quad) : ∀ {P : List Byte}, P.length < 4 → bulk q P = (q, P)
  | [], _ => rfl
  | [_], _ => rfl
  | [_, _], _ => rfl
  | [_, _, _], _ => rfl
  | _ :: _ :: _ :: _ :: P, h => by simp only [List.length_cons] at h; omega

/-- BULK mixes the whole words in order and leaves the bytes after them (R104). -/
theorem bulk_eq (q : Quad) (P : List Byte) :
    bulk q P = ({ q with hash := (fullWords P).foldl mix q.hash }, leftover P) := by
  induction P using bytes_induction generalizing q with
  | short P h => rw [bulk_short q h, fullWords_short h, leftover_short h]; rfl
  | word b0 b1 b2 b3 P ih => rw [bulk, ih]; rfl

theorem leftover_eq_drop (P : List Byte) : leftover P = P.drop (4 * (P.length / 4)) := by
  induction P using bytes_induction with
  | short P h => rw [leftover_short h, Nat.div_eq_of_lt h]; rfl
  | word b0 b1 b2 b3 P ih =>
    have hlen : 4 * ((P.length + 4) / 4) = 4 * (P.length / 4) + 4 := by omega
    rw [leftover, ih]
    simp only [List.length_cons, hlen, List.drop_succ_cons]

theorem leftover_length (P : List Byte) : (leftover P).length = P.length % 4 := by
  rw [leftover_eq_drop, List.length_drop]
  omega

/-- With no byte pending, the bytes BULK consumes could as well have gone through the tail (R107). -/
theorem bulk_foldl (q : Quad) (P : List Byte) (hcount : q.count = 0#2) (htail : q.tail = 0#32) :
    (bulk q P).2.foldl tailStep (bulk q P).1 = P.foldl tailStep q := by
  induction P using bytes_induction generalizing q with
  | short P h => rw [bulk_short q h]
  | word b0 b1 b2 b3 P ih =>
    calc (bulk q (b0 :: b1 :: b2 :: b3 :: P)).2.foldl tailStep (bulk q (b0 :: b1 :: b2 :: b3 :: P)).1
        = P.foldl tailStep (wordStep q (leWord b0 b1 b2 b3)) := ih _ hcount htail
      _ = P.foldl tailStep ([b0, b1, b2, b3].foldl tailStep q) := by rw [foldl_tailStep_word q _ _ _ _ hcount htail]
      _ = (b0 :: b1 :: b2 :: b3 :: P).foldl tailStep q := rfl

/-! ### FILL -/

/-- R27 with no byte pending. -/
theorem tail_of_count_zero {q : Quad} (hq : TailInv q) (h : q.count = 0#2) : q.tail = 0#32 := by
  simpa [TailInv, h] using hq

theorem fill_keeps_tailInv (q : Quad) (P : List Byte) (hq : TailInv q) : TailInv (fill q P).1 :=
  fill_keeps tailStep_keeps_tailInv q P hq

/-- With no byte pending and a whole word to come FILL does nothing (R103). -/
theorem fill_word {q : Quad} (hcount : q.count = 0#2) : ∀ {P : List Byte}, 4 ≤ P.length → fill q P = (q, P)
  | [], _ => rfl
  | b :: bs, h => by rw [fill, if_neg (by simp only [hcount, ne_eq, not_true, false_or]; omega)]

/-- With no byte pending FILL does not mix (R105 (a)). -/
theorem fill_hash_of_count_zero {q : Quad} (hcount : q.count = 0#2) (P : List Byte) : (fill q P).1.hash = q.hash := by
  by_cases h : 4 ≤ P.length
  · rw [fill_word hcount h]
  · rw [fill_short P q (by omega), foldl_tailStep_short q P (by rw [hcount]; simp; omega)]

/-- With no byte pending FILL consumes a payload shorter than a word, and nothing else (R105 (a)). -/
theorem fill_rest_of_count_zero {q : Quad} (hcount : q.count = 0#2) (P : List Byte) :
    (fill q P).2 = P.drop (if 4 ≤ P.length then 0 else P.length) := by
  by_cases h : 4 ≤ P.length
  · rw [fill_word hcount h, if_pos h]; rfl
  · rw [fill_short P q (by omega), if_neg h, List.drop_length]

/-- FILL runs on until the pending bytes are a whole word (R103). -/
theorem fill_append (q : Quad) (P R : List Byte) (hpos : 0 < q.count.toNat) (h : q.count.toNat + P.length ≤ 4) :
    fill q (P ++ R) = fill (P.foldl tailStep q) R := by
  induction P generalizing q with
  | nil => rfl
  | cons b bs ih =>
    rw [List.length_cons] at h
    have h0 : q.count ≠ 0#2 := fun h0 => by simp [h0] at hpos
    rw [List.cons_append, fill, if_pos (.inl h0), List.foldl_cons]
    by_cases h3 : q.count = 3#2
    · have hc := (count_eq_three_iff _).1 h3
      obtain rfl : bs = [] := List.length_eq_zero_iff.1 (by omega)
      rfl
    · have hcount : (tailStep q b).count.toNat = q.count.toNat + 1 := by rw [tailStep_count, count_add_one_toNat h3]
      exact ih _ (by omega) (by omega)

/-- The state after FILL has completed the pending word with `4 - COUNT` payload bytes (R103, R105 (a)). -/
def completed (q : Quad) (P : List Byte) : Quad :=
  { q with
    hash := mix q.hash (q.tail ||| packSum (P.take (4 - q.count.toNat)) <<< (8 * q.count.toNat))
    tail := 0#32
    count := 0#2 }

/-- With enough bytes to complete the pending word, FILL completes it and goes on with no byte pending (R103). -/
theorem fill_completes (q : Quad) (P : List Byte) (hpos : 0 < q.count.toNat) (h : 4 - q.count.toNat ≤ P.length) :
    fill q P = fill (completed q P) (P.drop (4 - q.count.toNat)) := by
  have hc := q.count.isLt
  have hlen : (P.take (4 - q.count.toNat)).length = 4 - q.count.toNat := List.length_take_of_le h
  calc fill q P
      = fill q (P.take (4 - q.count.toNat) ++ P.drop (4 - q.count.toNat)) := by rw [List.take_append_drop]
    _ = fill ((P.take (4 - q.count.toNat)).foldl tailStep q) (P.drop (4 - q.count.toNat)) :=
        fill_append q _ _ hpos (by omega)
    _ = fill (completed q P) (P.drop (4 - q.count.toNat)) := by
        rw [foldl_tailStep_completes q _ (by omega), completed]

/-- How many bytes the first FILL consumes of `n`, with `c` bytes pending (R105 (a)). -/
def fillLength (c n : Nat) : Nat :=
  if c = 0 then (if 4 ≤ n then 0 else n)
  else if n < 4 - c then n else if 4 ≤ n - (4 - c) then 4 - c else n

theorem fill_rest (q : Quad) (P : List Byte) : (fill q P).2 = P.drop (fillLength q.count.toNat P.length) := by
  unfold fillLength
  by_cases h0 : q.count.toNat = 0
  · rw [if_pos h0, fill_rest_of_count_zero (BitVec.eq_of_toNat_eq h0)]
  · rw [if_neg h0]
    by_cases hn : P.length < 4 - q.count.toNat
    · rw [if_pos hn, fill_short P q (by omega), List.drop_length]
    · rw [if_neg hn, fill_completes q P (by omega) (by omega), fill_rest_of_count_zero rfl, List.drop_drop,
        List.length_drop]
      split
      · rfl
      · rw [Nat.add_sub_cancel' (Nat.le_of_not_lt hn)]

/-- FILL mixes the word it completes (R105 (a)). -/
theorem fill_hash_of_completes (q : Quad) (P : List Byte) (hpos : 0 < q.count.toNat)
    (h : 4 - q.count.toNat ≤ P.length) : (fill q P).1.hash = (completed q P).hash := by
  rw [fill_completes q P hpos h, fill_hash_of_count_zero rfl]

/-- FILL mixes nothing when it completes no word (R105 (a)). -/
theorem fill_hash_of_not_completes (q : Quad) (P : List Byte)
    (h : ¬ (0 < q.count.toNat ∧ 4 - q.count.toNat ≤ P.length)) : (fill q P).1.hash = q.hash := by
  by_cases h0 : q.count.toNat = 0
  · exact fill_hash_of_count_zero (BitVec.eq_of_toNat_eq h0) P
  · rw [fill_short P q (by omega), foldl_tailStep_short q P (by omega)]

/-! ### The phases of ADD together -/

/-- Absorbing a payload is absorbing its bytes one at a time (R107). -/
theorem absorb_eq_foldl (q : Quad) (P : List Byte) (hq : TailInv q) :
    absorb q P = P.foldl tailStep (addSize q P.length) := by
  set b := fill (addSize q P.length) P with hb
  obtain ⟨-, -, -, hshort⟩ := bulk_frame b.2 b.1
  have hbulk : (bulk b.1 b.2).2.foldl tailStep (bulk b.1 b.2).1 = b.2.foldl tailStep b.1 := by
    rcases fill_post (addSize q P.length) P with hnil | ⟨hcount, -⟩
    · rw [hb, hnil]; rfl
    · exact bulk_foldl _ _ hcount (tail_of_count_zero (fill_keeps_tailInv (addSize q P.length) P hq) hcount)
  calc absorb q P
      = (bulk b.1 b.2).2.foldl tailStep (bulk b.1 b.2).1 := by rw [absorb, ← hb, fill_short _ _ hshort]
    _ = b.2.foldl tailStep b.1 := hbulk
    _ = P.foldl tailStep (addSize q P.length) := (fill_foldl _ P).symm

/-- Bytes through an empty tail, as a fold over words and the bytes left over (R108). -/
theorem foldl_tailStep_of_empty (q : Quad) (P : List Byte) (hcount : q.count = 0#2) (htail : q.tail = 0#32) :
    P.foldl tailStep q =
      { hash := (fullWords P).foldl mix q.hash
        tail := packSum (leftover P)
        count := BitVec.ofNat 2 P.length
        size := q.size } := by
  have hlen := leftover_length P
  have hmod : BitVec.ofNat 2 (P.length % 4) = BitVec.ofNat 2 P.length := BitVec.eq_of_toNat_eq (by simp)
  rw [← bulk_foldl q P hcount htail, bulk_eq, foldl_tailStep_short _ _ (by simp only [hcount, hlen]; simp; omega)]
  simp [hcount, htail, hlen, hmod]

theorem pendingBytes_length (q : Quad) : (pendingBytes q).length = q.count.toNat := by
  simp [pendingBytes]

/-- Any tail is its pending bytes put through the empty one (R22, R27). -/
theorem foldl_pendingBytes (q : Quad) (hq : TailInv q) :
    (pendingBytes q).foldl tailStep { q with tail := 0#32, count := 0#2 } = q := by
  have hc := q.count.isLt
  have hpack : packSum (pendingBytes q) = q.tail := packSum_bytes _ _ hq
  rw [foldl_tailStep_short _ _ (by rw [pendingBytes_length]; simp; omega), hpack, pendingBytes_length]
  simp

/-- The state after ADD is its closed form (R108). -/
theorem absorb_eq_absorbClosed (q : Quad) (P : List Byte) (hq : TailInv q) : absorb q P = absorbClosed q P := by
  have hstart := foldl_pendingBytes (addSize q P.length) hq
  rw [absorb_eq_foldl q P hq, ← hstart, ← List.foldl_append, foldl_tailStep_of_empty _ _ rfl rfl]
  rfl

/-! ### The statements -/

/-- Settles O22: a byte above the pending ones has no bit in common with them. -/
theorem tailStepAbsorbsOneByte : Obligations.TailStepAbsorbsOneByte := by
  refine ⟨fun z => ?_, fun q b => ⟨fun h => tailStep_of_three q b h, fun h => tailStep_of_not_three q b h,
    zext_shift_toNat b _ (Nat.le_of_lt_succ q.count.isLt), fun hq => ?_⟩⟩
  · have hword : (0x00736574#32 ||| zext32 0x74#8 <<< 24 : Word) = 0x74736574#32 := by decide
    rw [tailStep_of_three _ _ rfl, hword, mix_zero_left, mixChunk_of_test]
  · have hdisjoint := and_shiftLeft_eq_zero hq (b.setWidth 32)
    exact ⟨or_eq_xor_of_and_eq_zero hdisjoint, (BitVec.add_eq_or_of_and_eq_zero _ _ hdisjoint).symm,
      tailStep_keeps_tailInv q b hq⟩

/-- Settles O23: FILL completes the pending word where it can and stops before a whole word with no byte pending. -/
theorem phasesOfAddConsumeEverything : Obligations.PhasesOfAddConsumeEverything := by
  intro q P c n a x y
  obtain ⟨hcount, htail, -, hshort⟩ := bulk_frame x.2 x.1
  have hpost : x.2 = [] ∨ (x.1.count = 0#2 ∧ 4 ≤ x.2.length) := fill_post q P
  have hrest : y.2 = x.2.drop (4 * (x.2.length / 4)) :=
    (congrArg Prod.snd (bulk_eq x.1 x.2)).trans (leftover_eq_drop x.2)
  have hx : x.2 ≠ [] → x.1.count = 0#2 := fun hne => (hpost.resolve_left hne).1
  have hy : y.2 ≠ [] → y.1.count = 0#2 := fun hne => by
    rw [hcount]
    exact hx fun hnil => hne (by rw [hrest, hnil]; rfl)
  refine ⟨fill_rest q P, hpost, fill_hash_of_not_completes q P, fill_hash_of_completes q P, fun hq hne => ?_, hrest,
    hshort, htail, hcount, hy, ?_, by rw [fill_short _ _ hshort]⟩
  · exact tail_of_count_zero (fill_keeps_tailInv q P hq) (hx hne)
  · by_cases hnil : y.2 = []
    · rw [hnil]; rfl
    · exact fill_hash_of_count_zero (hy hnil) y.2

/-- Settles O24: every word BULK takes is four tail steps, since FILL hands over with no byte pending. -/
theorem absorbIsByteSerial : Obligations.AbsorbIsByteSerial :=
  ⟨fun q b0 b1 b2 b3 => foldl_tailStep_word q b0 b1 b2 b3, absorb_eq_foldl⟩

/-- Settles O25: the pending bytes and the payload go through the empty tail, word by word. -/
theorem addHasItsClosedForm : Obligations.AddHasItsClosedForm := by
  intro s hasBeats P n hfin hq hP
  rw [exec_add_ready hP, hasherAdd_active P _ hfin, absorb_eq_absorbClosed _ P hq, absorbClosed, List.length_append,
    pendingBytes_length]
  rfl

end Sys2Proof.Proofs

/-! PROOFS. The family of 41_hasher_fsm.md, the commands: INIT (R110, R111), ADD (R112), FINALIZE (R114), and the table
of the lifecycle (R116, R136). -/

namespace Sys2Proof.Proofs

open Sys2Proof.Machine Sys2Proof.Laws

/-- The payload `"test"` from seed 0: one word step (R112). -/
theorem absorb_test : absorb (scratchInit 0#32) [0x74#8, 0x65#8, 0x73#8, 0x74#8] =
    { hash := 0x220D3E62#32, tail := 0#32, count := 0#2, size := 4#32 } := by
  have hword : packSum [0x74#8, 0x65#8, 0x73#8, 0x74#8] = 0x74736574#32 := by decide
  rw [absorb_eq_foldl _ _ (tailInv_scratchInit 0#32), foldl_tailStep_completes _ _ rfl, hword,
    ← mixChunk_of_test, ← mix_zero_left]
  rfl

/-- Settles O26: with FIN = 0 the command is the phases A to D on the registers, with FIN = 1 the error. -/
theorem addFollowsItsRule : Obligations.AddFollowsItsRule := by
  refine ⟨fun e seed => by simp [decode_cwMake], fun r => ?_,
    fun s hasBeats P n hP => ⟨fun hfin => ?_, fun hfin => ?_⟩⟩
  · have hadd := hasherAdd_active [0x74#8, 0x65#8, 0x73#8, 0x74#8] (hasherInit 0#32 r).1 rfl
    have habsorb : absorb (quadOf (hasherInit 0#32 r).1) _ = _ := absorb_test
    rw [habsorb] at hadd
    simp only [runCommands, execCommand, hadd]
    rfl
  · rw [exec_add_ready hP, hasherAdd_active P _ hfin]
    rfl
  · rw [exec_add_ready hP, hasherAdd_finalized P _ hfin]
    rfl

/-- Settles O28: INIT reads no register. -/
theorem initCompletesInEveryState : Obligations.InitCompletesInEveryState :=
  ⟨fun e seed => by simp [decode_cwMake], fun _ _ => rfl, fun _ _ _ => rfl⟩

/-- Settles O29: with FIN = 0 the command finishes the hash, with FIN = 1 it is the error. -/
theorem finalizeFollowsItsRule : Obligations.FinalizeFollowsItsRule := by
  refine ⟨fun e seed => by simp [decode_cwMake], fun s => ⟨fun hfin => ?_, fun hfin => ?_⟩, ?_⟩
  · change Host.Outcome.next (answer (hasherFinalize s.regs) s) = _
    rw [hasherFinalize_active s.regs hfin]
    rfl
  · change Host.Outcome.next (answer (hasherFinalize s.regs) s) = _
    rw [hasherFinalize_finalized s.regs hfin]
    rfl
  · have hmix : mix (mix 0x220D3E62#32 0#32) 4#32 = 0x99174785#32 := by decide
    rw [hmix, fmix_example]

/-- Settles O38: each row and column is the command's own equation. -/
theorem lifecycleTable : Obligations.LifecycleTable := by
  refine fun r => ⟨fun seed => hasherInit_eq seed r, fun P hfin => ?_, fun P => hasherAdd_finalized P r,
    hasherFinalize_active r, hasherFinalize_finalized r, fun seed P => rfl,
    fun s hrst => ⟨resetEngine s, if_pos hrst, rfl, rfl, rfl⟩⟩
  rw [execCommand, hasherAdd_active P r hfin, setQuad, hfin]
  rfl

end Sys2Proof.Proofs

/-! PROOFS. The family of 42_engine.md, HASH_ONCE: its closed formula (R141), that it leaves the context alone (R133),
and that the hash does not depend on how the payload is cut into chunks (R139, R140). -/

namespace Sys2Proof.Proofs

open Sys2Proof.Machine Sys2Proof.Laws

/-! ### The hash of a payload -/

/-- Absorbing from an empty context and finishing is the closed formula (R141). -/
theorem finish_absorb_scratchInit (seed : Word) (P : List Byte) :
    finish (absorb (scratchInit seed) P).hash (absorb (scratchInit seed) P).tail (absorb (scratchInit seed) P).size =
      hash32 seed P := by
  have hpending : pendingBytes (scratchInit seed) = [] := rfl
  have hsize : (absorb (scratchInit seed) P).size = BitVec.ofNat 32 P.length :=
    (absorb_size (scratchInit seed) P).trans (BitVec.zero_add _)
  rw [hsize, absorb_eq_absorbClosed _ P (tailInv_scratchInit seed), absorbClosed, hpending]
  rfl

/-- HASH_ONCE keeps the registers and answers a function of its operands (R133, R141). -/
theorem engineHashOnce_eq (seed : Word) (P : List Byte) (r : Regs) :
    engineHashOnce seed P r = (r, .okHash (hash32 seed P)) := by
  rw [engineHashOnce, finish_absorb_scratchInit]

theorem execCommand_regs_of_isHashOnce {c : Command} (hc : isHashOnce c = true) (r : Regs) :
    (execCommand c r).1 = r := by
  cases c with
  | hashOnce seed P => rfl
  | init seed => cases hc
  | add P => cases hc
  | finalize => cases hc

/-- Without its HASH_ONCEs a sequence of commands ends in the same registers and answers the other responses (R133). -/
theorem runCommands_filter_not_hashOnce (cs : List Command) (r : Regs) :
    runCommands (cs.filter fun c => !isHashOnce c) r =
      ((runCommands cs r).1, ((cs.zip (runCommands cs r).2).filter fun x => !isHashOnce x.1).map fun x => x.2) := by
  induction cs generalizing r with
  | nil => rfl
  | cons c cs ih =>
    cases hc : isHashOnce c with
    | true => simp [runCommands, hc, ih, execCommand_regs_of_isHashOnce hc]
    | false => simp [runCommands, hc, ih]

/-! ### Chunks -/

theorem absorb_nil (q : Quad) : absorb q [] = q := by
  have hsize : addSize q 0 = q := by simp [addSize]
  exact hsize

/-- Two ADDs leave what one ADD of the concatenation leaves: the bytes go one at a time, and their numbers add up
(R107, R139). -/
theorem absorb_append (q : Quad) (P Q : List Byte) (hq : TailInv q) :
    absorb (absorb q P) Q = absorb q (P ++ Q) := by
  have hbytes {p : Quad} (S : List Byte) (hp : TailInv p) : absorb p S = addSize (S.foldl tailStep p) S.length :=
    (absorb_eq_foldl p S hp).trans (foldl_addSize S S.length p)
  calc absorb (absorb q P) Q
      = addSize (Q.foldl tailStep (addSize (P.foldl tailStep q) P.length)) Q.length := by
        rw [hbytes Q (absorb_keeps_tailInv q P hq), hbytes P hq]
    _ = addSize ((P ++ Q).foldl tailStep q) (P ++ Q).length := by
        rw [foldl_addSize, addSize_add, List.foldl_append, List.length_append]
    _ = absorb q (P ++ Q) := (hbytes (P ++ Q) hq).symm

/-- One ADD per chunk, in an active context, is the ADD of the chunks put together (R139). -/
theorem runCommands_adds (chunks : List (List Byte)) (r : Regs) (hfin : r.fin = false) (hr : TailInv (quadOf r)) :
    runCommands (chunks.map Command.add) r =
      (setQuad r (absorb (quadOf r) chunks.flatten), List.replicate chunks.length .ok) := by
  induction chunks generalizing r with
  | nil => rw [List.flatten_nil, absorb_nil, setQuad_quadOf]; rfl
  | cons P chunks ih =>
    have hrest := ih (setQuad r (absorb (quadOf r) P)) hfin (absorb_keeps_tailInv _ P hr)
    rw [quadOf_setQuad, setQuad_setQuad, absorb_append _ _ _ hr] at hrest
    simp only [List.map_cons, runCommands, execCommand, hasherAdd_active P r hfin, hrest]
    rfl

/-- INIT, one ADD per chunk and FINALIZE: the hash of the chunks put together, answered and kept in HASH (R139). -/
theorem runCommands_init_adds_finalize (seed : Word) (chunks : List (List Byte)) (r : Regs) :
    runCommands (.init seed :: (chunks.map Command.add ++ [.finalize])) r =
      ({ setQuad (hasherInit seed r).1 (absorb (scratchInit seed) chunks.flatten) with
          hash := hash32 seed chunks.flatten, fin := true },
       .ok :: (List.replicate chunks.length .ok ++ [.okHash (hash32 seed chunks.flatten)])) := by
  have hadds := runCommands_adds chunks (hasherInit seed r).1 rfl (tailInv_scratchInit seed)
  have hfinalize := hasherFinalize_active (setQuad (hasherInit seed r).1 (absorb (scratchInit seed) chunks.flatten)) rfl
  rw [setQuad_hash, setQuad_tail, setQuad_size, finish_absorb_scratchInit] at hfinalize
  have hquad : quadOf (hasherInit seed r).1 = scratchInit seed := rfl
  rw [hquad] at hadds
  rw [runCommands, execCommand, runCommands_append, hadds]
  simp only [runCommands, execCommand, hfinalize]
  rfl

/-! ### The statements -/

/-- Settles O39: HASH_ONCE on its payload, with the closed formula for the hash it answers. -/
theorem hashOnceAnswersTheClosedFormula : Obligations.HashOnceAnswersTheClosedFormula := by
  intro s seed hasBeats P n hP
  rw [exec_hashOnce_ready hP, engineHashOnce_eq]
  rfl

/-- Settles O40: by induction on the commands, and HASH_ONCE answers the closed formula whatever the registers. -/
theorem hashOnceLeavesTheContextAlone : Obligations.HashOnceLeavesTheContextAlone :=
  ⟨fun cs r => Prod.ext_iff.1 (runCommands_filter_not_hashOnce cs r),
    fun seed P => ⟨hash32 seed P, engineHashOnce_eq seed P⟩⟩

/-- Settles O41: both ways answer the closed formula of the concatenation. -/
theorem chunkIndependence : Obligations.ChunkIndependence :=
  ⟨fun seed chunks r r' => ⟨hash32 seed chunks.flatten, congrArg Prod.snd (runCommands_init_adds_finalize seed chunks r),
    congrArg Prod.snd (engineHashOnce_eq seed chunks.flatten r')⟩, absorb_append⟩

/-- Settles O42: the one chunk is the whole payload. -/
theorem oneShotEqualsIncremental : Obligations.OneShotEqualsIncremental := by
  intro seed b r r'
  have hrun : runCommands (hashctx seed b) r = _ := runCommands_init_adds_finalize seed [b] r
  rw [hrun, List.flatten_singleton]
  exact ⟨hash32 seed b, rfl, rfl, rfl, rfl, engineHashOnce_eq seed b r'⟩

end Sys2Proof.Proofs

/-! PROOFS. The family of 60_exceptions.md: the one error is raised by ADD and FINALIZE exactly when FIN = 1 (R151, R152),
and nothing but INIT ends it (R157). -/

namespace Sys2Proof.Proofs

open Sys2Proof.Machine Sys2Proof.Laws

/-- With FIN = 1 ADD and FINALIZE keep every register and answer the error (R151, R152). -/
theorem execCommand_rejected {c : Command} (hc : canFail c = true) {r : Regs} (hr : r.fin = true) :
    execCommand c r = (r, .errInvalidState) := by
  obtain ⟨hrejected, -, -⟩ := onlyInitLeavesFinalized
  exact hrejected c r hr hc

/-- A command that can fail is answered by the error exactly when FIN = 1 (R151, R152). -/
theorem execCommand_error_iff {c : Command} (hc : canFail c = true) (r : Regs) :
    (execCommand c r).2 = .errInvalidState ↔ r.fin = true := by
  rcases fin_cases r with h | h
  · simp [execCommand_rejected hc h, h]
  · cases c with
    | init seed => cases hc
    | add P => simp [execCommand, hasherAdd_active P r h, h]
    | finalize => simp [execCommand, hasherFinalize_active r h, h]
    | hashOnce seed P => cases hc

/-- An instruction that can fail offers the error exactly when FIN = 1, whatever payload it took (R151, R152). -/
theorem exec_error_iff {i : Instr} {s t : State} (hi : ∀ P, canFail (commandOf i P) = true) (h : exec i s = .next t) :
    t.rsp = some .errInvalidState ↔ s.regs.fin = true := by
  rcases exec_cases i s with ⟨hfault, -⟩ | ⟨P, n, -, hnext⟩
  · rw [hfault] at h; cases h
  · rw [hnext] at h
    cases h
    rw [answer_rsp, Option.some_inj, execCommand_error_iff (hi P)]

/-- FINALIZE leaves FIN = 1, accepted or rejected (R114). -/
theorem hasherFinalize_fin (r : Regs) : (hasherFinalize r).1.fin = true := by
  rcases fin_cases r with h | h
  · rw [hasherFinalize_finalized r h, h]
  · rw [hasherFinalize_active r h]

/-- With FIN = 1 ADDs and FINALIZEs all fail and keep the registers (R157). -/
theorem runCommands_rejected (cs : List Command) (r : Regs) (hr : r.fin = true) (hcs : ∀ c ∈ cs, canFail c = true) :
    runCommands cs r = (r, List.replicate cs.length .errInvalidState) := by
  induction cs with
  | nil => rfl
  | cons c cs ih =>
    obtain ⟨hc, hcs⟩ := List.forall_mem_cons.1 hcs
    rw [runCommands, execCommand_rejected hc hr, ih hcs]
    rfl

/-! ### The statements -/

/-- Settles O33: by induction on the commands; INIT then sets FIN = 0, so the ADD after it is accepted. -/
theorem errorsRepeatUntilInit : Obligations.ErrorsRepeatUntilInit := by
  intro cs r hr hcs
  have hrejected := runCommands_rejected cs r hr hcs
  refine ⟨hrejected, fun seed P => ?_⟩
  have hadd := hasherAdd_active P (hasherInit seed r).1 rfl
  rw [runCommands_append, hrejected]
  simp only [runCommands, execCommand, hadd]
  rfl

/-- Settles O31: the rule of ADD gives the rejected step, and the error comes in no other case. -/
theorem addIsRejectedExactlyWhenFinalized : Obligations.AddIsRejectedExactlyWhenFinalized := by
  obtain ⟨-, -, hrule⟩ := addFollowsItsRule
  refine ⟨rfl, fun s t h => ?_, fun s hasBeats P n hP => ⟨(hrule s hasBeats P n hP).2, fun t => ?_⟩⟩
  · cases h
    exact hasherFinalize_fin s.regs
  · exact exec_error_iff fun _ => rfl

/-- Settles O32: the first FINALIZE sets FIN = 1 and keeps its hash in HASH, where the second, rejected, leaves it. -/
theorem finalizeIsRejectedExactlyWhenFinalized : Obligations.FinalizeIsRejectedExactlyWhenFinalized := by
  obtain ⟨-, hrule, -⟩ := finalizeFollowsItsRule
  refine ⟨fun r hr => ⟨finish r.hash r.tail r.size, ?_⟩, fun s => ⟨(hrule s).2, fun t => exec_error_iff fun _ => rfl⟩⟩
  have hsecond := hasherFinalize_finalized (hasherFinalize r).1 (hasherFinalize_fin r)
  simp only [runCommands, execCommand, hsecond]
  simp only [hasherFinalize_active r hr, and_self]

end Sys2Proof.Proofs

/-! PROOFS. The family of 70_reset_and_hazards.md: what a clock edge with `rst = 1` shows, transfers and leaves (R170,
R171). -/

namespace Sys2Proof.Proofs

open Sys2Proof.Machine Sys2Proof.Laws

/-! ### An edge with `rst = 1` -/

section Reset

variable {p : PinsIn} (e : PinEngine) (t : Timing) (h : p.rst = true)
include h

theorem pinsOut_of_rst : pinsOut e p t = { cmdReady := false, datReady := false, rspWord := none } := if_pos h

theorem edge_of_rst : edge e p t = pinReset := if_pos h

/-- A transfer needs `valid` and `ready` both at 1 (R61), and no `ready` or `rsp_valid` of the engine is. -/
theorem edgeXfers_of_rst : edgeXfers e p t = { cmds := [], beats := [], rsps := [] } := by
  simp [edgeXfers, xferCommand, xferBeat, xferResponse, pinsOut_of_rst e t h]

/-- A run that begins with a reset is the rest of the run from the reset engine. -/
theorem edges_cons_of_rst (es : List (PinsIn × Timing)) : edges ((p, t) :: es) e = edges es pinReset := by
  simp [edges, edge_of_rst e t h, edgeXfers_of_rst e t h, joinXfers]

end Reset

/-! ### The statement -/

/-- Settles O51: the run from either engine is the run of what follows from the reset engine. -/
theorem pinResetAbandonsEverything : Obligations.PinResetAbandonsEverything := by
  intro e p t h
  refine ⟨edge_of_rst e t h, edgeXfers_of_rst e t h, pinsOut_of_rst e t h, fun es e' => ?_⟩
  rw [edges_cons_of_rst e t h, edges_cons_of_rst e' t h]

end Sys2Proof.Proofs

/-! PROOFS. Statements derived from 30_encoding.md: round trips of decoded commands and of whole sessions (R69, R79),
the opcode map in mask and match form (R66), and written command words. -/

namespace Sys2Proof.Proofs

open Sys2Proof.Machine Sys2Proof.Laws

/-- The opcode of the decoded command is the `op` field, whatever `e` and `seed` (R66). -/
theorem opcode_decode (w : CmdWord) : opcode (decode w) = cwOp w := by
  rcases count_cases (cwOp w) with h | h | h | h <;> rw [decode, h] <;> rfl

/-- Command words are masked field by field (R63). -/
theorem cwMake_and (op op' : BitVec 2) (e e' : Bool) (seed seed' : Word) :
    cwMake op e seed &&& cwMake op' e' seed' = cwMake (op &&& op') (e && e') (seed &&& seed') := by
  rw [cwMake, cwMake, BitVec.and_append, BitVec.and_append, BitVec.ofBool_and_ofBool, cwMake]

theorem opMask_eq : opMask = cwMake 3#2 false 0#32 := by decide

theorem opMatch_eq (i : Instr) : opMatch i = cwMake (opcode i) false 0#32 := by
  cases i <;> rw [opMatch, opcode] <;> decide

/-- The mask keeps the `op` field and clears the others (R66). -/
theorem and_opMask (w : CmdWord) : w &&& opMask = cwMake (cwOp w) false 0#32 := by
  have hop : cwOp w &&& 3#2 = cwOp w := BitVec.and_allOnes
  rw [opMask_eq, ← cwMake_fields w, cwMake_and, cwMake_fields w, hop, Bool.and_false, BitVec.and_zero]

theorem and_opMask_eq_opMatch_iff (w : CmdWord) (i : Instr) : w &&& opMask = opMatch i ↔ cwOp w = opcode i := by
  rw [and_opMask, opMatch_eq]
  refine ⟨fun h => ?_, fun h => by rw [h]⟩
  rw [← cwOp_make (cwOp w) false 0#32, h, cwOp_make]

theorem emit_cons (c : Command) (cs : List Command) :
    emit (c :: cs) = ((encodeCommand c).1 :: (emit cs).1, (encodeCommand c).2 ++ (emit cs).2) := rfl

/-- The transactions of a sequence are its first and then the others, read from the beats the first leaves (R131). -/
theorem assemble_cons {w : CmdWord} {D D' : List Beat} {c : Command} (h : nextCommand w D = some (c, D'))
    (ws : List CmdWord) : assemble (w :: ws) D = (assemble ws D').map fun x => (c :: x.1, x.2) := by
  simp only [assemble, h]
  cases assemble ws D' <;> rfl

/-! ### The statements -/

/-- Settles O8: the fields of a canonical word are the operands it was made of. -/
theorem decodeEncodeRoundTrip : Obligations.DecodeEncodeRoundTrip :=
  fun i _ => decode_encode i

/-- Settles O10: by induction on the commands, each read back from its own words with the others' beats behind it. -/
theorem sessionRoundTrip : Obligations.SessionRoundTrip := by
  intro cs rest
  induction cs with
  | nil => rfl
  | cons c cs ih =>
    rw [emit_cons, List.append_assoc, assemble_cons (nextCommand_encodeCommand c _), ih]
    rfl

/-- Settles O11: the mask leaves the `op` field alone, which is the opcode of the decoded command. -/
theorem opcodeMapMaskAndMatch : Obligations.OpcodeMapMaskAndMatch := by
  refine fun w i => ⟨?_, opcode_decode w⟩
  rw [opcode_decode]
  exact and_opMask_eq_opMatch_iff w i

/-- Settles O13: six words read by their fields. -/
theorem decodeOfWrittenWords : Obligations.DecodeOfWrittenWords := by
  refine ⟨?_, ?_, ?_, ?_, ?_, ?_⟩ <;> decide

end Sys2Proof.Proofs

/-! PROOFS. Statements derived from 40_mixer.md: the corner cases of `mix` and its bijections (R93), and with them that
different seeds give different hashes (R142). -/

namespace Sys2Proof.Proofs

open Sys2Proof.Machine Sys2Proof.Laws

theorem mixChunk_zero : mixChunk 0#32 = 0#32 := by decide

theorem mix_zero_right (h : Word) : mix h 0#32 = Config.M * h := by
  rw [mix_eq_xor_mixChunk, mixChunk_zero, BitVec.xor_zero]

/-- `M - 1` is four times an odd number, so multiplying by `M` keeps exactly the multiples of `2^30` (R93 (b), (f)). -/
theorem mul_M_mod_eq_self_iff {n : Nat} (h : n < 2 ^ 32) : 0x5BD1E995 * n % 2 ^ 32 = n ↔ n % 2 ^ 30 = 0 := by
  have hodd : Nat.Coprime (2 ^ 30) 0x16F47A65 := by decide
  have hdiff : 0x5BD1E995 * n - n = 4 * (0x16F47A65 * n) := by omega
  calc 0x5BD1E995 * n % 2 ^ 32 = n
      ↔ n ≡ 0x5BD1E995 * n [MOD 2 ^ 32] := by rw [Nat.ModEq, Nat.mod_eq_of_lt h, eq_comm]
    _ ↔ 4 * 2 ^ 30 ∣ 4 * (0x16F47A65 * n) := by rw [Nat.modEq_iff_dvd' (by omega), hdiff]; rfl
    _ ↔ n % 2 ^ 30 = 0 := by
      rw [Nat.mul_dvd_mul_iff_left (by decide), hodd.dvd_mul_left, Nat.dvd_iff_mod_eq_zero]

theorem mul_M_eq_self_iff (h : Word) : Config.M * h = h ↔ h.extractLsb' 0 30 = 0#30 := by
  rw [← BitVec.toNat_inj, ← BitVec.toNat_inj, BitVec.toNat_mul, BitVec.extractLsb'_toNat, Nat.shiftRight_zero]
  exact mul_M_mod_eq_self_iff h.isLt

/-- The chunk and the hash reach the result separately (R93 (e)). -/
theorem mix_eq_xor (h k : Word) : mix h k = mix h 0#32 ^^^ mix 0#32 k := by
  rw [mix_zero_right, mix_zero_left, mix_eq_xor_mixChunk]

theorem xor_right_bijective {w : Nat} (y : BitVec w) : Function.Bijective fun x : BitVec w => x ^^^ y :=
  Function.Involutive.bijective fun x => by simp only [BitVec.xor_assoc, BitVec.xor_self, BitVec.xor_zero]

theorem xor_left_bijective {w : Nat} (y : BitVec w) : Function.Bijective fun x : BitVec w => y ^^^ x := by
  simpa only [BitVec.xor_comm] using xor_right_bijective y

/-- `mixChunk` is its three stages one after the other (R90). -/
theorem mixChunk_eq_stages : mixChunk =
    (fun k : Word => Config.M * k) ∘ (fun k : Word => k ^^^ (k >>> Config.R)) ∘ (fun k : Word => Config.M * k) := rfl

theorem mixChunk_bijective : Function.Bijective mixChunk := by
  rw [mixChunk_eq_stages]
  exact mul_M_bijective.comp ((xor_ushiftRight_bijective (by decide)).comp mul_M_bijective)

/-- For a fixed chunk `mix` is a bijection of the hash (R93 (d)). -/
theorem mix_hash_bijective (k : Word) : Function.Bijective fun h => mix h k :=
  (xor_right_bijective (mixChunk k)).comp mul_M_bijective

/-- For a fixed hash `mix` is a bijection of the chunk (R93 (d)). -/
theorem mix_chunk_bijective (h : Word) : Function.Bijective fun k => mix h k :=
  (xor_left_bijective (Config.M * h)).comp mixChunk_bijective

theorem foldl_mix_bijective (ws : List Word) : Function.Bijective fun seed => ws.foldl mix seed := by
  induction ws with
  | nil => exact Function.bijective_id
  | cons w ws ih => exact ih.comp (mix_hash_bijective w)

/-- Every stage of the hash is a bijection of what it works on (R142). -/
theorem hash32_bijective (b : List Byte) : Function.Bijective fun seed => hash32 seed b :=
  fmix_bijective.comp ((mix_hash_bijective _).comp ((mix_hash_bijective _).comp (foldl_mix_bijective (fullWords b))))

/-- The hash of the byte 0 (R115 (d), R142). -/
theorem hash32_zero_byte (seed : Word) : hash32 seed [0#8] = fmix (mix (mix seed 0#32) 1#32) := rfl

/-! ### The statements -/

/-- Settles O20: `M` is odd, no difference but 0 survives an xorshift as 0, and an exclusive or undoes itself. -/
theorem mixCornerCases : Obligations.MixCornerCases := by
  refine ⟨by decide, mix_zero_right, fun h => ?_, mix_zero_left, mix_eq_xor, mul_M_bijective,
    xor_ushiftRight_bijective (by decide), mix_hash_bijective, mix_chunk_bijective, by decide, by decide, by decide⟩
  rw [mix_zero_right, mul_M_eq_self_iff]

/-- Settles O43: HASH_ONCE answers `hash32`, a bijection of the seed. -/
theorem differentSeedsDifferentHashes : Obligations.DifferentSeedsDifferentHashes := by
  refine ⟨hash32_bijective, fun b s1 s2 r hne heq => ?_, ?_, ?_⟩
  · rw [execCommand, execCommand, engineHashOnce_eq, engineHashOnce_eq, Response.okHash.injEq] at heq
    exact hne ((hash32_bijective b).injective heq)
  · rw [hash32_zero_byte]; decide
  · rw [hash32_zero_byte]; decide

end Sys2Proof.Proofs

/-! PROOFS. Statements derived from 41_hasher_fsm.md and 60_exceptions.md: the corner cases of ADD (R113) and of
FINALIZE (R115), and where the one error comes from (R153). -/

namespace Sys2Proof.Proofs

open Sys2Proof.Machine Sys2Proof.Laws

/-! ### ADD of a few bytes -/

/-- Under R27 the bytes placed above the pending ones meet no nonzero bit, so they may be added (R101). -/
theorem tail_or_shiftLeft_eq_add {q : Quad} (hq : TailInv q) (x : Word) :
    q.tail ||| x <<< (8 * q.count.toNat) = q.tail + x <<< (8 * q.count.toNat) :=
  (BitVec.add_eq_or_of_and_eq_zero _ _ (and_shiftLeft_eq_zero hq x)).symm

/-- A payload that does not complete the pending word only extends it (R113 (b)). -/
theorem absorb_short {q : Quad} {P : List Byte} (hq : TailInv q) (h : P.length < 4 - q.count.toNat) :
    absorb q P =
      { hash := q.hash
        tail := q.tail + packSum P <<< (8 * q.count.toNat)
        count := BitVec.ofNat 2 (q.count.toNat + P.length)
        size := q.size + BitVec.ofNat 32 P.length } := by
  rw [absorb_eq_foldl q P hq, foldl_tailStep_short _ P (by rw [addSize_count]; omega), addSize_tail, addSize_count,
    tail_or_shiftLeft_eq_add hq, BitVec.ofNat_add, BitVec.ofNat_toNat, BitVec.setWidth_eq]
  rfl

/-- A payload that exactly completes the pending word mixes it and clears the tail (R113 (c)). -/
theorem absorb_completes {q : Quad} {P : List Byte} (hq : TailInv q) (h : q.count.toNat + P.length = 4) :
    absorb q P =
      { hash := mix q.hash (q.tail + packSum P <<< (8 * q.count.toNat))
        tail := 0#32
        count := 0#2
        size := q.size + BitVec.ofNat 32 P.length } := by
  rw [absorb_eq_foldl q P hq, foldl_tailStep_completes (addSize q P.length) P h, addSize_tail,
    addSize_count, tail_or_shiftLeft_eq_add hq]
  rfl

/-- What is left of a payload after it has completed the pending word becomes the new tail, if it is shorter than a
word (R113 (e)). -/
theorem absorb_completes_then_short {q : Quad} {P : List Byte} (hq : TailInv q) (hlow : 4 - q.count.toNat ≤ P.length)
    (hhigh : P.length < 8 - q.count.toNat) :
    absorb q P =
      { hash := mix q.hash (q.tail + packSum (P.take (4 - q.count.toNat)) <<< (8 * q.count.toNat))
        tail := packSum (P.drop (4 - q.count.toNat))
        count := BitVec.ofNat 2 (P.length - (4 - q.count.toNat))
        size := q.size + BitVec.ofNat 32 P.length } := by
  have hc := q.count.isLt
  have htake : (P.take (4 - q.count.toNat)).length = 4 - q.count.toNat := List.length_take_of_le hlow
  have hfirst := absorb_completes (P := P.take (4 - q.count.toNat)) hq (by omega)
  have hempty : TailInv (absorb q (P.take (4 - q.count.toNat))) := absorb_keeps_tailInv q _ hq
  have hsize : BitVec.ofNat 32 (4 - q.count.toNat) + BitVec.ofNat 32 (P.length - (4 - q.count.toNat)) =
      BitVec.ofNat 32 P.length := by rw [← BitVec.ofNat_add, Nat.add_sub_cancel' hlow]
  rw [hfirst] at hempty
  rw [← List.take_append_drop (4 - q.count.toNat) P, ← absorb_append q _ _ hq, hfirst,
    absorb_short hempty (by rw [List.length_drop]; simp; omega), List.take_append_drop]
  simp [htake, BitVec.add_assoc, hsize]

/-! ### FINALIZE after few commands -/

/-- COUNT is no input of FINALIZE (R115 (c)). -/
theorem hasherFinalize_count (r : Regs) (c : BitVec 2) :
    (hasherFinalize { r with count := c }).2 = (hasherFinalize r).2 := by
  rcases fin_cases r with h | h
  · rw [hasherFinalize_finalized { r with count := c } h, hasherFinalize_finalized r h]
  · rw [hasherFinalize_active { r with count := c } h, hasherFinalize_active r h]

/-- INIT, one ADD and FINALIZE answer the hash of the payload (R140). -/
theorem runCommands_hashctx (seed : Word) (b : List Byte) (r : Regs) :
    (runCommands [.init seed, .add b, .finalize] r).2 = [.ok, .ok, .okHash (hash32 seed b)] := by
  have hrun := congrArg Prod.snd (runCommands_init_adds_finalize seed [b] r)
  rw [List.flatten_singleton] at hrun
  exact hrun

/-- INIT and HASH_ONCE never answer the error (R153). -/
theorem execCommand_ne_error {c : Command} (hc : canFail c = false) (r : Regs) :
    (execCommand c r).2 ≠ .errInvalidState := by
  cases c with
  | init seed => exact Response.noConfusion
  | hashOnce seed P => exact Response.noConfusion
  | add P => cases hc
  | finalize => cases hc

/-! ### The statements -/

/-- Settles O27: the bytes go through the tail one by one, to the end of the pending word and then from an empty one. -/
theorem addCornerCases : Obligations.AddCornerCases := by
  intro q P hq
  refine ⟨absorb_nil q, absorb_short hq, fun _ h => absorb_completes hq (by have := q.count.isLt; omega),
    fun _ => absorb_completes_then_short hq, fun hsize hlen => ?_⟩
  rw [absorb_size, hsize, hlen]
  rfl

/-- Settles O30: FINALIZE by its rule, after no ADD, after one, and after a FINALIZE. -/
theorem finalizeCornerCases : Obligations.FinalizeCornerCases := by
  refine ⟨fun r hfin hr hcount => ?_, fun seed r => rfl, hasherFinalize_count, fun r => ⟨?_, ?_⟩, fun r => ?_,
    hasherFinalize_finalized resetRegs rfl⟩
  · have htail : r.tail = 0#32 := tail_of_count_zero hr hcount
    rw [execCommand, hasherFinalize_active r hfin, htail, finish, mix_zero_right]
  · obtain ⟨-, -, hhash, -⟩ := differentSeedsDifferentHashes
    rw [runCommands_hashctx, hhash]
  · have hhash : hash32 0#32 [] = 0#32 := by decide
    rw [runCommands_hashctx, hhash]
  · have hsecond := hasherFinalize_finalized (hasherFinalize r).1 (hasherFinalize_fin r)
    simp only [runCommands, execCommand, hsecond]

/-- Settles O34: INIT and HASH_ONCE never answer the error, ADD and FINALIZE exactly when FIN = 1. -/
theorem nothingElseRaisesAnything : Obligations.NothingElseRaisesAnything := by
  intro c r
  cases hc : canFail c with
  | true => simp [execCommand_error_iff hc r]
  | false => simp [execCommand_ne_error hc r]

end Sys2Proof.Proofs

/-! PROOFS. Statements derived from 10_state.md, 42_engine.md and 70_reset_and_hazards.md at step grain: when a command
stops (R177), what it leaves alone (R36), the host's actions (R183) and reset (R170), a step as one transaction (R131,
R134), runs of steps (R136), and several engines (R143). -/

namespace Sys2Proof.Proofs

open Sys2Proof.Machine Sys2Proof.Laws

/-! ### The payload operand -/

section Ready

variable {hasBeats : Bool} {s : State} {P Q : List Byte} {m n : Nat}

theorem payloadReady_false (h : PayloadReady false s P n) : P = [] ∧ n = 0 := by
  rcases h with ⟨-, hP, hn⟩ | ⟨hb, -⟩
  · exact ⟨hP, hn⟩
  · cases hb

theorem payloadReady_true (h : PayloadReady true s P n) : take s.beats = some (P, n) := by
  rcases h with ⟨hb, -⟩ | ⟨-, htake⟩
  · cases hb
  · exact htake

/-- A state offers at most one payload (R69). -/
theorem payloadReady_unique (hP : PayloadReady hasBeats s P m) (hQ : PayloadReady hasBeats s Q n) : P = Q ∧ m = n := by
  cases hasBeats with
  | false =>
    obtain ⟨rfl, rfl⟩ := payloadReady_false hP
    obtain ⟨rfl, rfl⟩ := payloadReady_false hQ
    exact ⟨rfl, rfl⟩
  | true => simpa using (payloadReady_true hP).symm.trans (payloadReady_true hQ)

theorem payloadReady_le (h : PayloadReady hasBeats s P n) : n ≤ s.beats.length := by
  cases hasBeats with
  | false =>
    obtain ⟨-, rfl⟩ := payloadReady_false h
    exact Nat.zero_le _
  | true =>
    obtain ⟨-, -, hn⟩ := take_eq_some (payloadReady_true h)
    exact hn

end Ready

/-- A transaction is read where its payload is ready (R69, R131). -/
theorem nextCommand_eq_some_iff (w : CmdWord) (s : State) (c : Command) (D : List Beat) :
    nextCommand w s.beats = some (c, D) ↔
      ∃ P n, PayloadReady (needsBeats (decode w)) s P n ∧ c = commandOf (decode w) P ∧ D = s.beats.drop n := by
  cases h : needsBeats (decode w) with
  | false =>
    rw [nextCommand_without_beats h]
    constructor
    · rintro ⟨⟩
      exact ⟨[], 0, .inl ⟨rfl, rfl, rfl⟩, rfl, rfl⟩
    · rintro ⟨P, n, hP, rfl, rfl⟩
      obtain ⟨rfl, rfl⟩ := payloadReady_false hP
      rfl
  | true =>
    rw [nextCommand_with_beats h, Option.map_eq_some_iff]
    constructor
    · rintro ⟨⟨P, n⟩, htake, ⟨⟩⟩
      exact ⟨P, n, .inr ⟨rfl, htake⟩, rfl, rfl⟩
    · rintro ⟨P, n, hP, rfl, rfl⟩
      exact ⟨(P, n), payloadReady_true hP, rfl⟩

/-- Reading a sequence of transactions is reading its first and then the others (R131). -/
theorem assemble_cons_eq_some {w : CmdWord} {ws : List CmdWord} {D D'' : List Beat} {cs : List Command}
    (h : assemble (w :: ws) D = some (cs, D'')) :
    ∃ c D' cs', nextCommand w D = some (c, D') ∧ assemble ws D' = some (cs', D'') ∧ cs = c :: cs' := by
  cases hc : nextCommand w D with
  | none => simp [assemble, hc] at h
  | some x =>
    rw [assemble_cons hc, Option.map_eq_some_iff] at h
    obtain ⟨⟨cs', D'''⟩, hcs, hx⟩ := h
    cases hx
    exact ⟨x.1, x.2, cs', rfl, hcs, rfl⟩

/-! ### What `exec` answers -/

theorem exec_ready {i : Instr} {s : State} {P : List Byte} {n : Nat} (h : PayloadReady (needsBeats i) s P n) :
    exec i s = .next (answer (execCommand (commandOf i P) s.regs) (takeBeats n s)) := by
  cases i with
  | init seed => obtain ⟨rfl, rfl⟩ := payloadReady_false h; rfl
  | add hasBeats => exact exec_add_ready h
  | finalize => obtain ⟨rfl, rfl⟩ := payloadReady_false h; rfl
  | hashOnce seed hasBeats => exact exec_hashOnce_ready h

/-- A next state is the command run on its payload (R131, R136). -/
theorem exec_eq_next {i : Instr} {s t : State} (h : exec i s = .next t) :
    ∃ P n, PayloadReady (needsBeats i) s P n ∧ t = answer (execCommand (commandOf i P) s.regs) (takeBeats n s) := by
  rcases exec_cases i s with ⟨hfault, -⟩ | ⟨P, n, hP, hnext⟩
  · rw [hfault] at h; cases h
  · rw [hnext] at h; cases h
    exact ⟨P, n, hP, rfl⟩

/-- With its payload there a command has a next state, and only with it (R177). -/
theorem exec_eq_next_iff (i : Instr) (s : State) :
    (∃ t, exec i s = .next t) ↔ ¬ (needsBeats i = true ∧ take s.beats = none) := by
  rcases exec_cases i s with ⟨hfault, hwait⟩ | ⟨P, n, hP, hnext⟩
  · simp [hfault, hwait]
  · refine iff_of_true ⟨_, hnext⟩ ?_
    rintro ⟨hneeds, htake⟩
    rw [hneeds] at hP
    simp [payloadReady_true hP] at htake

theorem exec_eq_fault_iff (i : Instr) (s : State) (f : Fault) :
    exec i s = .fault f ↔ f = .awaitingPayload ∧ needsBeats i = true ∧ take s.beats = none := by
  rcases exec_cases i s with ⟨hfault, hwait⟩ | ⟨P, n, hP, hnext⟩
  · simp [hfault, hwait, eq_comm]
  · have hready := (exec_eq_next_iff i s).1 ⟨_, hnext⟩
    simp [hnext, hready]

theorem exec_ne_refused (i : Instr) (s : State) (r : Refusal) : exec i s ≠ .refused r := by
  rcases exec_cases i s with ⟨hfault, -⟩ | ⟨P, n, -, hnext⟩
  · simp [hfault]
  · simp [hnext]

/-! ### What the commands leave alone -/

theorem hasherAdd_fin (P : List Byte) (r : Regs) : (hasherAdd P r).1.fin = r.fin := by
  rcases fin_cases r with h | h
  · rw [hasherAdd_finalized P r h]
  · rw [hasherAdd_active P r h, setQuad_fin]

/-- FINALIZE writes HASH and FIN alone (R36, R114). -/
theorem hasherFinalize_frame (r : Regs) :
    (hasherFinalize r).1 = { r with hash := (hasherFinalize r).1.hash, fin := true } := by
  rcases fin_cases r with h | h
  · rw [hasherFinalize_finalized r h, ← h]
  · rw [hasherFinalize_active r h]

/-- A payload shorter than a word goes through the tail byte by byte (R103). -/
theorem absorb_below_word (q : Quad) (P : List Byte) (h : P.length < 4) :
    absorb q P = P.foldl tailStep (addSize q P.length) := by
  rw [absorb, fill_short P _ h]
  rfl

/-- An ADD that completes no word keeps HASH (R36). -/
theorem hasherAdd_hash (P : List Byte) (r : Regs) (h : r.count.toNat + P.length < 4) :
    (hasherAdd P r).1.hash = r.hash := by
  rcases fin_cases r with hfin | hfin
  · rw [hasherAdd_finalized P r hfin]
  · rw [hasherAdd_active P r hfin, setQuad_hash, absorb_below_word _ P (by omega), foldl_tailStep_short _ P h]
    rfl

/-! ### The step -/

theorem transferResponse_ready {s : State} {r : Response} (hrsp : s.rsp = some r) (hready : s.rspReady = true) :
    transferResponse s = { s with rsp := none, sent := s.sent ++ [r] } := by
  simp [transferResponse, hrsp, hready]

/-- A command's response is transferred at once when the host is ready, and else stays offered (R131). -/
theorem transferResponse_answer (x : Regs × Response) (s : State) :
    transferResponse (answer x s) =
      if s.rspReady then { s with regs := x.1, rsp := none, sent := s.sent ++ [x.2] } else answer x s := rfl

/-- Without reset and with nothing outstanding a step runs the command at the head of its channel (R131). -/
theorem step_command {s : State} {w : CmdWord} {ws : List CmdWord} (hrst : s.rst = false) (hrsp : s.rsp = none)
    (hcmds : s.cmds = w :: ws) : step s = afterExec (exec (decode w) { s with cmds := ws }) := by
  have hpop : popCommand s = { s with cmds := ws } := by rw [popCommand, hcmds]; rfl
  simp [step, hrst, hrsp, hcmds, hpop]

/-- The state after a command whose response the host takes at once (R131, R134). -/
def afterTransaction (s : State) (ws : List CmdWord) (c : Command) (n : Nat) : State :=
  { s with
    regs := (execCommand c s.regs).1
    cmds := ws
    beats := s.beats.drop n
    k := s.k + n
    rsp := none
    sent := s.sent ++ [(execCommand c s.regs).2] }

theorem step_transaction {s : State} {w : CmdWord} {ws : List CmdWord} {P : List Byte} {n : Nat} (hrst : s.rst = false)
    (hrsp : s.rsp = none) (hready : s.rspReady = true) (hcmds : s.cmds = w :: ws)
    (hP : PayloadReady (needsBeats (decode w)) s P n) :
    step s = .next (afterTransaction s ws (commandOf (decode w) P) n) := by
  have hexec := exec_ready (i := decode w) (s := { s with cmds := ws }) hP
  rw [step_command hrst hrsp hcmds, hexec, afterExec, transferResponse_answer]
  exact congrArg _ (if_pos hready)

/-! ### Runs of steps -/

theorem run_succ {s t : State} (h : step s = .next t) (n : Nat) : core.run (n + 1) s = core.run n t := by
  have hcore : core.step s = .next t := h
  simp [Host.Core.run, hcore]

/-- As many steps as there are command words run the commands they stand for (R131, R136). -/
theorem run_refines (ws : List CmdWord) (s : State) (cs : List Command) (rest : List Beat) (hcmds : s.cmds = ws)
    (hrst : s.rst = false) (hrsp : s.rsp = none) (hready : s.rspReady = true)
    (hread : assemble ws s.beats = some (cs, rest)) :
    ∃ t, core.run ws.length s = .next t ∧
      t.regs = (runCommands cs s.regs).1 ∧ t.sent = s.sent ++ (runCommands cs s.regs).2 ∧
      t.beats = rest ∧ t.k + rest.length = s.k + s.beats.length ∧ Quiescent t ∧
      t.rspReady = true ∧ t.rst = false := by
  induction ws generalizing s cs with
  | nil =>
    cases hread
    exact ⟨s, rfl, rfl, (List.append_nil _).symm, rfl, rfl, ⟨hcmds, hrsp⟩, hready, hrst⟩
  | cons w ws ih =>
    obtain ⟨c, D, cs', hc, hread', rfl⟩ := assemble_cons_eq_some hread
    obtain ⟨P, n, hP, rfl, rfl⟩ := (nextCommand_eq_some_iff w s c D).1 hc
    obtain ⟨t, hrun, hregs, hsent, hbeats, hk, hquiet⟩ :=
      ih (afterTransaction s ws (commandOf (decode w) P) n) cs' rfl hrst rfl hready hread'
    refine ⟨t, ?_, hregs, ?_, hbeats, ?_, hquiet⟩
    · rw [List.length_cons, run_succ (step_transaction hrst hrsp hready hcmds hP), hrun]
    · simpa [afterTransaction, runCommands] using hsent
    · have hn := payloadReady_le hP
      simp only [afterTransaction, List.length_drop] at hk
      omega

/-! ### The statements -/

/-- Settles O2: the reset engine, field by field. -/
theorem resetStepRestartsEverything : Obligations.ResetStepRestartsEverything :=
  fun _ h => if_pos h

/-- Settles O7: each action updates a channel or a pin of the host's. -/
theorem hostActionsReachNoRegister : Obligations.HostActionsReachNoRegister := by
  intro a s
  cases a <;> exact ⟨rfl, rfl, rfl, rfl⟩

/-- Settles O35: `exec` waits for the payload or runs the command, and there is no payload without a last beat. -/
theorem onlyAnUnfinishedPayloadStopsACommand : Obligations.OnlyAnUnfinishedPayloadStopsACommand := by
  refine fun i s => ⟨?_, ?_, fun f h => ((exec_eq_fault_iff i s f).1 h).1, exec_ne_refused i s⟩
  · simp [exec_eq_fault_iff, take_eq_none_iff]
  · rw [exec_eq_next_iff, take_eq_none_iff]
    simp [imp_iff_not_or]

/-- Settles O36: the frame of answering and taking beats, and of each command on the registers. -/
theorem accessTableFrames : Obligations.AccessTableFrames := by
  intro i s t h
  obtain ⟨P, n, hP, rfl⟩ := exec_eq_next h
  refine ⟨⟨rfl, rfl, rfl, rfl, n, rfl, rfl, fun hneeds => ?_⟩, ?_, ?_, ?_⟩
  · rw [hneeds] at hP
    obtain ⟨-, hn⟩ := payloadReady_false hP
    exact hn
  · rintro hasBeats rfl
    refine ⟨execCommand_seed (.add P) s.regs rfl, hasherAdd_fin P s.regs, fun hfin => ?_, fun _ Q m hQ => ?_⟩
    · exact congrArg Prod.fst (hasherAdd_finalized P s.regs hfin)
    · obtain ⟨rfl, -⟩ := payloadReady_unique hP hQ
      exact hasherAdd_hash P s.regs
  · rintro rfl
    have hframe : (answer (execCommand .finalize s.regs) (takeBeats n s)).regs = _ := hasherFinalize_frame s.regs
    refine ⟨?_, ?_, ?_, ?_, ?_, fun hfin => congrArg Prod.fst (hasherFinalize_finalized s.regs hfin)⟩ <;>
      rw [commandOf, hframe]
  · rintro seed hasBeats rfl
    rfl

/-- Settles O44: the word is decoded, run, and its response transferred when the host is ready. -/
theorem stepRunsTheDecodedCommand : Obligations.StepRunsTheDecodedCommand := by
  intro s w ws hrst hrsp hcmds
  rw [step_command hrst hrsp hcmds]
  refine ⟨?_, fun t h hready => ?_, fun t h hready => ?_, fun f h => by rw [h, afterExec]⟩
  · cases decode w <;> rfl
  · obtain ⟨P, n, -, rfl⟩ := exec_eq_next h
    refine ⟨_, rfl, ?_⟩
    rw [h, afterExec, transferResponse_answer]
    exact congrArg _ (if_pos hready)
  · obtain ⟨P, n, -, rfl⟩ := exec_eq_next h
    rw [h, afterExec, transferResponse_answer]
    exact congrArg _ (if_neg (by simp [hready]))

/-- Settles O45: the step asks for a reset, then for an offered response, then for a command word. -/
theorem engineWaitsForItsHost : Obligations.EngineWaitsForItsHost := by
  refine fun s hrst => ⟨fun hrsp hcmds => ?_, fun r hrsp => ⟨fun hready => ?_, fun hready => ?_⟩⟩
  · simp [step, hrst, hrsp, hcmds]
  · simp [step, hrst, hrsp, hready]
  · simp [step, hrst, hrsp, hready, transferResponse_ready hrsp hready]

/-- Settles O46: the step that is no reset and no mere transfer is one command, with the beats it reads. -/
theorem stepIsOneTransaction : Obligations.StepIsOneTransaction := by
  intro s t hrst hrsp h
  rcases step_cases s t h with ⟨hreset, -⟩ | ⟨-, r, hoffered, -⟩ | ⟨-, -, w, ws, P, n, hcmds, hP, rfl⟩
  · simp [hrst] at hreset
  · simp [hrsp] at hoffered
  · have hc := (nextCommand_eq_some_iff w s _ _).2 ⟨P, n, hP, rfl, rfl⟩
    have hn := payloadReady_le hP
    refine ⟨w, commandOf (decode w) P, ?_⟩
    rw [transferResponse_answer]
    cases hready : s.rspReady with
    | true => simp [hcmds, hc, hready, hrst]; omega
    | false => simp [hcmds, hc, hready, hrst]; omega

/-- Settles O47: by induction on the command words, one transaction at each step. -/
theorem runsRefineTheTotalFunction : Obligations.RunsRefineTheTotalFunction :=
  fun s cs rest hrst hrsp hready hread => run_refines s.cmds s cs rest rfl hrst hrsp hready hread

/-- Settles O54: a system's step sets one entry of its list. -/
theorem enginesShareNothing : Obligations.EnginesShareNothing := by
  intro n m sys sys' h
  unfold stepEngine at h
  split at h
  · cases h
  next s hs =>
    split at h
    next t ht =>
      cases h
      obtain ⟨hn, -⟩ := List.getElem?_eq_some_iff.1 hs
      exact ⟨List.length_set, fun hne => List.getElem?_set_ne hne.symm, s, t, hs, ht, List.getElem?_set_self hn⟩
    · cases h
    · cases h

end Sys2Proof.Proofs

/-! PROOFS. Statements derived from 41_hasher_fsm.md R118: the micro-phases end in IDLE with what the atomic commands
leave and answer (R121), HASH_ONCE among them on scratch registers (R132). -/

namespace Sys2Proof.Proofs

open Sys2Proof.Machine Sys2Proof.Laws

/-! ### Visits in a row -/

/-- Some number of visits leads from `f` to `g`. -/
def PhasesLead (f g : Fsm) : Prop := ∃ n, phaseRun n f = g

theorem phasesLead_refl (f : Fsm) : PhasesLead f f := ⟨0, rfl⟩

theorem phasesLead_of_step {f g h : Fsm} (hstep : phaseStep f = g) (hlead : PhasesLead g h) : PhasesLead f h := by
  subst hstep
  obtain ⟨n, rfl⟩ := hlead
  exact ⟨n + 1, rfl⟩

theorem phaseRun_add (m n : Nat) (f : Fsm) : phaseRun (m + n) f = phaseRun n (phaseRun m f) := by
  induction m generalizing f with
  | zero => rw [Nat.zero_add]; rfl
  | succ m ih => rw [Nat.succ_add]; exact ih (phaseStep f)

theorem phasesLead_trans {f g h : Fsm} (hfg : PhasesLead f g) (hgh : PhasesLead g h) : PhasesLead f h := by
  obtain ⟨m, rfl⟩ := hfg
  obtain ⟨n, rfl⟩ := hgh
  exact ⟨m + n, phaseRun_add m n f⟩

/-! ### The phases of ADD -/

/-- A phase of ADD with payload `P`, begun on the registers `r`, now with the quadruple `q` and the cursor at `i`. -/
def addPhase (r : Regs) (P : List Byte) (ph : Phase) (q : Quad) (i : Nat) : Fsm :=
  { regs := setQuad r q, ph := ph, i := i, payload := P, out := none }

section AddPhases

variable (r : Regs) {P Q : List Byte} {q : Quad} {i : Nat}

/-- The condition of FILL in terms of the bytes not yet consumed (R103). -/
theorem fillCond_addPhase (ph : Phase) (q : Quad) (h : P.drop i = Q) :
    fillCond (addPhase r P ph q i) = true ↔ Q ≠ [] ∧ (q.count ≠ 0#2 ∨ Q.length < 4) := by
  have hlen : Q.length = P.length - i := by rw [← h, List.length_drop]
  rw [← List.length_pos_iff, hlen, Nat.sub_pos_iff_lt, fillCond, Bool.and_eq_true, Bool.or_eq_true,
    decide_eq_true_iff, decide_eq_true_iff, decide_eq_true_iff]
  rfl

/-- What FILL leaves does not meet its condition (R103). -/
theorem fillCond_after_fill (ph : Phase) (h : P.drop i = (fill q Q).2) :
    fillCond (addPhase r P ph (fill q Q).1 i) = false := by
  rw [← Bool.not_eq_true, fillCond_addPhase r ph _ h]
  rcases fill_post q Q with hnil | ⟨hcount, hlen⟩
  · simp [hnil]
  · simp [hcount, hlen]

theorem fillVisit_addPhase (ph : Phase) (q : Quad) {b : Byte} {bs : List Byte} (h : P.drop i = b :: bs) :
    fillVisit (addPhase r P ph q i) = addPhase r P ph (tailStep q b) (i + 1) := by
  have hread : memRead1 P i = some b := by rw [memRead1, ← List.head?_drop, h]; rfl
  simp [fillVisit, addPhase, hread]

theorem bulkVisit_addPhase (ph : Phase) (q : Quad) {b0 b1 b2 b3 : Byte} {bs : List Byte}
    (h : P.drop i = b0 :: b1 :: b2 :: b3 :: bs) :
    bulkVisit (addPhase r P ph q i) = addPhase r P ph (wordStep q (leWord b0 b1 b2 b3)) (i + 4) := by
  have hread : memRead4 P i = memRead4 (P.drop i) 0 := by simp [memRead4, memRead1]
  rw [h, memRead4_cons] at hread
  simp [bulkVisit, addPhase, hread]

/-- FILL, in either of its phases, visit by visit (R103, R118). -/
theorem fill_phases {ph : Phase} (hph : ph = .bFill ∨ ph = .dFill) (h : P.drop i = Q) :
    ∃ j, PhasesLead (addPhase r P ph q i) (addPhase r P ph (fill q Q).1 j) ∧ P.drop j = (fill q Q).2 := by
  induction Q generalizing q i with
  | nil => exact ⟨i, phasesLead_refl _, h⟩
  | cons b bs ih =>
    rw [fill]
    by_cases hfill : q.count ≠ 0#2 ∨ (b :: bs).length < 4
    · have hcond := (fillCond_addPhase r ph q h).2 ⟨List.cons_ne_nil b bs, hfill⟩
      have hstep : phaseStep (addPhase r P ph q i) = addPhase r P ph (tailStep q b) (i + 1) := by
        rw [← fillVisit_addPhase r ph q h]
        rcases hph with rfl | rfl <;> exact if_pos hcond
      obtain ⟨j, hlead, hrest⟩ := ih (q := tailStep q b) (i := i + 1) (by rw [← List.drop_drop, h]; rfl)
      rw [if_pos hfill]
      exact ⟨j, phasesLead_of_step hstep hlead, hrest⟩
    · rw [if_neg hfill]
      exact ⟨i, phasesLead_refl _, h⟩

/-- B_FILL and the visit that ends it (R118). -/
theorem bFill_phase (h : P.drop i = Q) :
    ∃ j, PhasesLead (addPhase r P .bFill q i) (addPhase r P .cBulk (fill q Q).1 j) ∧ P.drop j = (fill q Q).2 := by
  obtain ⟨j, hlead, hrest⟩ := fill_phases r (.inl rfl) (q := q) h
  have hend := fillCond_after_fill r .bFill hrest
  exact ⟨j, phasesLead_trans hlead (phasesLead_of_step (if_neg (by simp [hend])) (phasesLead_refl _)), hrest⟩

/-- C_BULK and the visit that ends it (R104, R118). -/
theorem cBulk_phase (h : P.drop i = Q) :
    ∃ j, PhasesLead (addPhase r P .cBulk q i) (addPhase r P .dFill (bulk q Q).1 j) ∧ P.drop j = (bulk q Q).2 := by
  have hlen : Q.length = P.length - i := by rw [← h, List.length_drop]
  induction Q using bytes_induction generalizing q i with
  | short Q hQ =>
    rw [bulk_short q hQ]
    have hend : ¬ 4 ≤ P.length - i := by omega
    exact ⟨i, phasesLead_of_step (if_neg hend) (phasesLead_refl _), h⟩
  | word b0 b1 b2 b3 Q ih =>
    have hword : 4 ≤ P.length - i := by simp only [List.length_cons] at hlen; omega
    have hrest : P.drop (i + 4) = Q := by rw [← List.drop_drop, h]; rfl
    obtain ⟨j, hlead, hleft⟩ :=
      ih (q := wordStep q (leWord b0 b1 b2 b3)) hrest (by rw [← hrest, List.length_drop])
    exact ⟨j, phasesLead_of_step ((if_pos hword).trans (bulkVisit_addPhase r .cBulk q h)) hlead, hleft⟩

/-- D_FILL and the visit that ends the command (R118). -/
theorem dFill_phase (h : P.drop i = Q) :
    ∃ j, PhasesLead (addPhase r P .dFill q i) { addPhase r P .idle (fill q Q).1 j with out := some .ok } := by
  obtain ⟨j, hlead, hrest⟩ := fill_phases r (.inr rfl) (q := q) h
  have hend := fillCond_after_fill r .dFill hrest
  exact ⟨j, phasesLead_trans hlead (phasesLead_of_step (if_neg (by simp [hend])) (phasesLead_refl _))⟩

/-- Phases A to D are `absorb` (R112, R118). -/
theorem add_phases (P : List Byte) :
    ∃ j, PhasesLead (addPhase r P .aSize (quadOf r) 0)
      { addPhase r P .idle (absorb (quadOf r) P) j with out := some .ok } := by
  obtain ⟨j, hB, hj⟩ := bFill_phase r (q := addSize (quadOf r) P.length) (i := 0) (Q := P) rfl
  obtain ⟨k, hC, hk⟩ := cBulk_phase r hj
  obtain ⟨l, hD⟩ := dFill_phase r hk
  exact ⟨l, phasesLead_of_step rfl (phasesLead_trans hB (phasesLead_trans hC hD))⟩

end AddPhases

/-! ### Whole commands -/

/-- The visits from `f` end in IDLE with these registers and this response. -/
def PhasesEnd (f : Fsm) (x : Regs × Response) : Prop :=
  ∃ n, (phaseRun n f).ph = .idle ∧ (phaseRun n f).regs = x.1 ∧ (phaseRun n f).out = some x.2

/-- A rejected ADD ends at once, any other with its phases A to D (R118). -/
theorem add_phasesEnd (P : List Byte) (r : Regs) : PhasesEnd (phaseStart r (.add P)) (hasherAdd P r) := by
  rcases fin_cases r with h | h
  · rw [hasherAdd_finalized P r h, phaseStart, isFinalized, if_pos h]
    exact ⟨0, rfl, rfl, rfl⟩
  · rw [hasherAdd_active P r h, phaseStart, isFinalized, if_neg (by simp [h])]
    obtain ⟨j, n, hn⟩ := add_phases r P
    have hrun : phaseRun n { regs := r, ph := .aSize, i := 0, payload := P, out := none } = _ := hn
    exact ⟨n, by rw [hrun]; rfl, by rw [hrun]; rfl, by rw [hrun]⟩

/-- A rejected FINALIZE ends at once, any other after F_TAIL, F_SIZE and F_AVAL (R118). -/
theorem finalize_phasesEnd (r : Regs) : PhasesEnd (phaseStart r .finalize) (hasherFinalize r) := by
  rcases fin_cases r with h | h
  · rw [hasherFinalize_finalized r h, phaseStart, isFinalized, if_pos h]
    exact ⟨0, rfl, rfl, rfl⟩
  · rw [hasherFinalize_active r h, phaseStart, isFinalized, if_neg (by simp [h])]
    exact ⟨3, rfl, rfl, rfl⟩

/-- Settles O48: ADD runs its phases one after the other, FINALIZE its three visits; HASH_ONCE finishes the scratch
registers that ADD leaves active. -/
theorem microPhasesRefineTheCommands : Obligations.MicroPhasesRefineTheCommands := by
  refine ⟨fun c r hc => ?_, fun seed P r => ?_⟩
  · cases c with
    | init seed => exact ⟨0, rfl, rfl, rfl⟩
    | add P => exact add_phasesEnd P r
    | finalize => exact finalize_phasesEnd r
    | hashOnce seed P => cases hc
  · have hadd := hasherAdd_active P (scratchRegs seed) rfl
    obtain ⟨m, hph, hregs, -⟩ := add_phasesEnd P (scratchRegs seed)
    rw [hadd] at hregs
    obtain ⟨n, hph', -, hout⟩ := finalize_phasesEnd (setQuad (scratchRegs seed) (absorb (scratchInit seed) P))
    rw [hasherFinalize_active _ rfl] at hout
    have hquad : quadOf (scratchRegs seed) = scratchInit seed := rfl
    rw [hquad] at hregs
    refine ⟨m, n, hph, ?_, ?_⟩
    · rw [hregs]; exact hph'
    · rw [hregs]; exact hout

end Sys2Proof.Proofs

/-! PROOFS. Statements derived from 42_engine.md and 70_reset_and_hazards.md at the ports: what one clock edge does
(R61, R131, R135, R178, R180), that runs of edges refine the total function (R136), and that nothing depends on timing
(R181). -/

namespace Sys2Proof.Proofs

open Sys2Proof.Machine Sys2Proof.Laws

/-! ### One clock edge without reset -/

/-- Does the engine go on at this edge? It does when both sides are willing (R61), or when executing ends. -/
def moves (e : PinEngine) (p : PinsIn) (t : Timing) : Bool :=
  match e.loop with
  | .idle => p.cmdValid && t.takesCommand
  | .collecting _ _ => p.datValid && t.takesBeat
  | .executing _ => t.done
  | .offering _ => p.rspReady

/-- The engine after an edge at which it goes on (R131). -/
def moved (e : PinEngine) (p : PinsIn) : PinEngine :=
  match e.loop with
  | .idle => { e with loop := loopBegin p.cmdWord }
  | .collecting i P => { e with loop := loopBeat i P p.datBeat, k := e.k + 1 }
  | .executing c => { e with regs := (execCommand c e.regs).1, loop := .offering (execCommand c e.regs).2 }
  | .offering _ => { e with loop := .idle }

/-- No transfer on any channel. -/
def noXfers : Xfers := { cmds := [], beats := [], rsps := [] }

/-- What is transferred at an edge at which the engine goes on (R61). -/
def movedXfers (e : PinEngine) (p : PinsIn) : Xfers :=
  match e.loop with
  | .idle => { noXfers with cmds := [p.cmdWord] }
  | .collecting _ _ => { noXfers with beats := [p.datBeat] }
  | .executing _ => noXfers
  | .offering r => { noXfers with rsps := [encodeResponse r] }

@[simp] theorem joinXfers_noXfers (x : Xfers) : joinXfers x noXfers = x := by
  simp [joinXfers, noXfers]

@[simp] theorem noXfers_joinXfers (x : Xfers) : joinXfers noXfers x = x := rfl

section Edge

variable {e : PinEngine} {p : PinsIn} {t : Timing}

/-- An edge at which the engine does not go on transfers nothing and changes nothing. -/
theorem edge_stays (h : p.rst = false) (hm : moves e p t = false) : edge e p t = e ∧ edgeXfers e p t = noXfers := by
  obtain ⟨r, loop, k⟩ := e
  cases loop <;> simp only [moves] at hm <;>
    simp [edge, edgeXfers, xferCommand, xferBeat, xferResponse, pinsOut, noXfers, h, hm]

/-- An edge at which the engine goes on transfers one word, or ends executing (R61, R131). -/
theorem edge_moves (h : p.rst = false) (hm : moves e p t = true) :
    edge e p t = moved e p ∧ edgeXfers e p t = movedXfers e p := by
  obtain ⟨r, loop, k⟩ := e
  cases loop <;> simp only [moves] at hm <;>
    simp [edge, edgeXfers, xferCommand, xferBeat, xferResponse, pinsOut, moved, movedXfers, noXfers, h, hm]

theorem edge_cases (h : p.rst = false) :
    (edge e p t = e ∧ edgeXfers e p t = noXfers) ∨ (edge e p t = moved e p ∧ edgeXfers e p t = movedXfers e p) := by
  cases hm : moves e p t with
  | false => exact .inl (edge_stays h hm)
  | true => exact .inr (edge_moves h hm)

/-! ### What the ports show -/

theorem pinsOut_cmdReady (h : p.rst = false) :
    (pinsOut e p t).cmdReady = true ↔ e.loop = .idle ∧ t.takesCommand = true := by
  obtain ⟨r, loop, k⟩ := e
  cases loop <;> simp [pinsOut, h]

theorem pinsOut_datReady (h : p.rst = false) :
    (pinsOut e p t).datReady = true ↔ (∃ i P, e.loop = .collecting i P) ∧ t.takesBeat = true := by
  obtain ⟨r, loop, k⟩ := e
  cases loop <;> simp [pinsOut, h]

theorem pinsOut_rspWord (h : p.rst = false) (v : RspWord) :
    (pinsOut e p t).rspWord = some v ↔ ∃ r, e.loop = .offering r ∧ v = encodeResponse r := by
  obtain ⟨r, loop, k⟩ := e
  cases loop <;> simp [pinsOut, h, eq_comm]

theorem cmdReady_of_xferCommand (h : xferCommand e p t ≠ none) : (pinsOut e p t).cmdReady = true := by
  simp only [xferCommand, ne_eq, ite_eq_right_iff, Bool.and_eq_true] at h
  tauto

theorem datReady_of_xferBeat (h : xferBeat e p t ≠ none) : (pinsOut e p t).datReady = true := by
  simp only [xferBeat, ne_eq, ite_eq_right_iff, Bool.and_eq_true] at h
  tauto

/-- A command word is taken between commands only (R135). -/
theorem idle_of_xferCommand (h : p.rst = false) (hx : xferCommand e p t ≠ none) : e.loop = .idle :=
  ((pinsOut_cmdReady h).1 (cmdReady_of_xferCommand hx)).1

/-- A beat is taken while a payload is collected only (R180). -/
theorem collecting_of_xferBeat (h : p.rst = false) (hx : xferBeat e p t ≠ none) : ∃ i P, e.loop = .collecting i P :=
  ((pinsOut_datReady h).1 (datReady_of_xferBeat hx)).1

theorem loopBegin_ne_offering (w : CmdWord) (r : Response) : loopBegin w ≠ .offering r := by
  unfold loopBegin
  split <;> exact Loop.noConfusion

theorem loopBeat_ne_offering (i : Instr) (P : List Byte) (b : Beat) (r : Response) : loopBeat i P b ≠ .offering r := by
  unfold loopBeat
  split <;> exact Loop.noConfusion

/-- A response is offered, and the registers change, when a command ends and at no other move. -/
theorem moved_ends_command (hmoved : (∃ r, (moved e p).loop = .offering r) ∨ (moved e p).regs ≠ e.regs) :
    ∃ c, e.loop = .executing c ∧
      moved e p = { e with regs := (execCommand c e.regs).1, loop := .offering (execCommand c e.regs).2 } := by
  obtain ⟨r, loop, k⟩ := e
  cases loop with
  | idle => simp [moved, loopBegin_ne_offering] at hmoved
  | collecting i P => simp [moved, loopBeat_ne_offering] at hmoved
  | executing c => exact ⟨c, rfl, rfl⟩
  | offering r' => simp [moved] at hmoved

end Edge

/-- Settles O52: each loop state has its own channel, and only the end of executing leads to an offer. -/
theorem channelsTakeTurns : Obligations.ChannelsTakeTurns := by
  intro e p t h
  refine ⟨fun hr => ((pinsOut_cmdReady h).1 hr).1, fun hr => ((pinsOut_datReady h).1 hr).1, pinsOut_rspWord h,
    idle_of_xferCommand h, collecting_of_xferBeat h, fun r hl => ⟨?_, ?_, ?_, ?_, ?_⟩, fun r hr => ?_, fun hr => ?_⟩
  · exact (pinsOut_rspWord h _).2 ⟨r, hl, rfl⟩
  · by_contra hx
    simp [idle_of_xferCommand h hx] at hl
  · by_contra hx
    obtain ⟨i, P, hc⟩ := collecting_of_xferBeat h hx
    simp [hc] at hl
  · intro hready
    obtain ⟨hedge, -⟩ := edge_stays (e := e) (t := t) h (by simp [moves, hl, hready])
    exact hedge
  · intro hready
    obtain ⟨hedge, -⟩ := edge_moves (e := e) (t := t) h (by simp [moves, hl, hready])
    rw [hedge, moved, hl]
  · rcases edge_cases (e := e) (t := t) h with ⟨hedge, -⟩ | ⟨hedge, -⟩
    · exact .inl hedge
    · rw [hedge] at hr
      obtain ⟨c, hc, hend⟩ := moved_ends_command (.inl ⟨r, hr⟩)
      rw [hend, Loop.offering.injEq] at hr
      exact .inr ⟨c, hc, hr.symm, by rw [hedge, hend, hr]⟩
  · rcases edge_cases (e := e) (t := t) h with ⟨hedge, -⟩ | ⟨hedge, -⟩
    · exact absurd (congrArg PinEngine.regs hedge) hr
    · rw [hedge] at hr ⊢
      exact moved_ends_command (.inr hr)

/-! ### Reading what was transferred -/

/-- The beats of one transaction, all but the last with `last = 0` (R69). -/
theorem take_collected {bs : List Beat} (hbs : ∀ b ∈ bs, beatLast b = false) {b : Beat} (hb : beatLast b = true) :
    take (bs ++ [b]) = some ((bs.map beatBytes).flatten ++ beatBytes b, (bs ++ [b]).length) := by
  induction bs with
  | nil => exact take_cons_last hb []
  | cons a bs ih =>
    obtain ⟨ha, hbs⟩ := List.forall_mem_cons.1 hbs
    simp [take_cons_not_last ha, ih hbs]

/-- Beats behind a payload are not read (R69). -/
theorem take_append {D : List Beat} {P : List Byte} {n : Nat} (h : take D = some (P, n)) (E : List Beat) :
    take (D ++ E) = some (P, n) := by
  obtain ⟨hframed, rfl, hn⟩ := take_eq_some h
  have htake := take_framed_append (D.take n) (D.drop n ++ E) hframed
  rwa [← List.append_assoc, List.take_append_drop, List.length_take_of_le hn] at htake

theorem nextCommand_append {w : CmdWord} {D D' : List Beat} {c : Command} (h : nextCommand w D = some (c, D'))
    (E : List Beat) : nextCommand w (D ++ E) = some (c, D' ++ E) := by
  cases hneeds : needsBeats (decode w) with
  | false =>
    rw [nextCommand_without_beats hneeds] at h ⊢
    cases h
    rfl
  | true =>
    rw [nextCommand_with_beats hneeds, Option.map_eq_some_iff] at h ⊢
    obtain ⟨⟨P, n⟩, htake, hx⟩ := h
    cases hx
    obtain ⟨-, -, hn⟩ := take_eq_some htake
    exact ⟨(P, n), take_append htake E, by rw [List.drop_append_of_le_length hn]⟩

/-- Transactions behind others are read from the beats the others leave (R131). -/
theorem assemble_append {ws vs : List CmdWord} {D D' D'' E : List Beat} {cs cs' : List Command}
    (h : assemble ws D = some (cs, D')) (h' : assemble vs (D' ++ E) = some (cs', D'')) :
    assemble (ws ++ vs) (D ++ E) = some (cs ++ cs', D'') := by
  induction ws generalizing D cs with
  | nil =>
    cases h
    exact h'
  | cons w ws ih =>
    obtain ⟨c, D1, cs1, hc, hread, rfl⟩ := assemble_cons_eq_some h
    rw [List.cons_append, assemble_cons (nextCommand_append hc E), ih hread]
    rfl

theorem assemble_concat {ws : List CmdWord} {w : CmdWord} {D E : List Beat} {cs : List Command} {c : Command}
    (hcs : assemble ws D = some (cs, [])) (hc : nextCommand w E = some (c, [])) :
    assemble (ws ++ [w]) (D ++ E) = some (cs ++ [c], []) :=
  assemble_append hcs (assemble_cons hc [])

/-! ### Where a run stands -/

/-- A run from an idle engine with registers `r` and beat index `k`: where the engine stands, and what was transferred.
Its words and beats read as the commands `cs` whose responses were transferred, and as the command in progress. -/
inductive Stands (r : Regs) (k : Nat) : PinEngine → Xfers → Prop
  | idle {cs ws D} : assemble ws D = some (cs, []) →
      Stands r k { regs := (runCommands cs r).1, loop := .idle, k := k + D.length }
        { cmds := ws, beats := D, rsps := (runCommands cs r).2.map encodeResponse }
  | collecting {cs ws D w bs} : assemble ws D = some (cs, []) → needsBeats (decode w) = true →
      (∀ b ∈ bs, beatLast b = false) →
      Stands r k
        { regs := (runCommands cs r).1
          loop := .collecting (decode w) (bs.map beatBytes).flatten
          k := k + (D ++ bs).length }
        { cmds := ws ++ [w], beats := D ++ bs, rsps := (runCommands cs r).2.map encodeResponse }
  | executing {cs c ws D} : assemble ws D = some (cs ++ [c], []) →
      Stands r k { regs := (runCommands cs r).1, loop := .executing c, k := k + D.length }
        { cmds := ws, beats := D, rsps := (runCommands cs r).2.map encodeResponse }
  | offering {cs c ws D} : assemble ws D = some (cs ++ [c], []) →
      Stands r k
        { regs := (execCommand c (runCommands cs r).1).1
          loop := .offering (execCommand c (runCommands cs r).1).2
          k := k + D.length }
        { cmds := ws, beats := D, rsps := (runCommands cs r).2.map encodeResponse }

section Runs

variable {r : Regs} {k : Nat} {e : PinEngine} {x : Xfers}

theorem stands_moved (h : Stands r k e x) (p : PinsIn) : Stands r k (moved e p) (joinXfers x (movedXfers e p)) := by
  cases h with
  | idle hread =>
    cases hneeds : needsBeats (decode p.cmdWord) with
    | false =>
      have hnext := assemble_concat hread (nextCommand_without_beats hneeds [])
      simpa [moved, movedXfers, joinXfers, noXfers, loopBegin, hneeds] using Stands.executing hnext
    | true =>
      simpa [moved, movedXfers, joinXfers, noXfers, loopBegin, hneeds] using
        Stands.collecting (bs := []) hread hneeds (by simp)
  | @collecting cs ws D w bs hread hneeds hbs =>
    cases hlast : beatLast p.datBeat with
    | false =>
      have hbs' : ∀ b ∈ bs ++ [p.datBeat], beatLast b = false := by
        simpa [or_imp, forall_and] using ⟨hbs, hlast⟩
      simpa [moved, movedXfers, joinXfers, noXfers, loopBeat, hlast, Nat.add_assoc] using
        Stands.collecting hread hneeds hbs'
    | true =>
      have hnext : nextCommand w (bs ++ [p.datBeat]) =
          some (commandOf (decode w) ((bs.map beatBytes).flatten ++ beatBytes p.datBeat), []) := by
        rw [nextCommand_with_beats hneeds, take_collected hbs hlast, Option.map_some, List.drop_length]
      simpa [moved, movedXfers, joinXfers, noXfers, loopBeat, hlast, Nat.add_assoc] using
        Stands.executing (assemble_concat hread hnext)
  | executing hread => simpa [moved, movedXfers] using Stands.offering hread
  | offering hread =>
    simpa [moved, movedXfers, joinXfers, noXfers, runCommands_append, runCommands] using Stands.idle hread

theorem stands_edges (es : List (PinsIn × Timing)) (hrst : ∀ x ∈ es, x.1.rst = false) (h : Stands r k e x) :
    Stands r k (edges es e).1 (joinXfers x (edges es e).2) := by
  induction es generalizing e x with
  | nil => simpa [edges, joinXfers] using h
  | cons pt es ih =>
    obtain ⟨hpt, hes⟩ := List.forall_mem_cons.1 hrst
    simp only [edges, ← joinXfers_assoc]
    rcases edge_cases (e := e) (t := pt.2) hpt with ⟨hedge, hxfers⟩ | ⟨hedge, hxfers⟩
    · rw [hedge, hxfers, joinXfers_noXfers]
      exact ih hes h
    · rw [hedge, hxfers]
      exact ih hes (stands_moved h pt.1)

theorem stands_of_idle (h : Stands r k e x) (hidle : e.loop = .idle) :
    ∃ cs, assemble x.cmds x.beats = some (cs, []) ∧ x.rsps = (runCommands cs r).2.map encodeResponse ∧
      e = { regs := (runCommands cs r).1, loop := .idle, k := k + x.beats.length } := by
  cases h with
  | @idle cs ws D hread => exact ⟨cs, hread, rfl, rfl⟩
  | collecting => cases hidle
  | executing => cases hidle
  | offering => cases hidle

end Runs

/-! ### The statements about runs -/

/-- Settles O49: every move of the engine keeps `Stands`. -/
theorem pinRunsRefineTheTotalFunction : Obligations.PinRunsRefineTheTotalFunction := by
  intro es r k hrst hidle
  have hstart : Stands r k { regs := r, loop := .idle, k := k } noXfers := 
    Stands.idle (cs := []) (ws := []) (D := []) rfl
  exact stands_of_idle (stands_edges es hrst hstart) hidle

/-- Settles O50: both runs have transferred the same commands, and what else they leave is a function of these. -/
theorem nothingDependsOnTiming : Obligations.NothingDependsOnTiming := by
  rintro es es' ⟨r, loop, k⟩ rfl hrst hrst' hidle hidle' hcmds hbeats
  obtain ⟨cs, hread, hrsps, hend⟩ := pinRunsRefineTheTotalFunction es r k hrst hidle
  obtain ⟨cs', hread', hrsps', hend'⟩ := pinRunsRefineTheTotalFunction es' r k hrst' hidle'
  obtain rfl : cs = cs' := by
    rw [hcmds, hbeats, hread'] at hread
    simpa using hread.symm
  exact ⟨hrsps.trans hrsps'.symm, by rw [hend, hend', hbeats]⟩

end Sys2Proof.Proofs

/-! PROOFS. Statements derived from 70_reset_and_hazards.md R182: with a host that meets its duties (R177, R178) and an
engine that makes progress, every transaction is answered. -/

namespace Sys2Proof.Proofs

open Sys2Proof.Machine Sys2Proof.Laws

/-! ### Waiting -/

/-- Edges at which the engine does not go on leave it and transfer nothing. -/
theorem edges_stay {e : PinEngine} {es : List (PinsIn × Timing)}
    (h : ∀ x ∈ es, x.1.rst = false ∧ moves e x.1 x.2 = false) : edges es e = (e, noXfers) := by
  induction es with
  | nil => rfl
  | cons pt es ih =>
    obtain ⟨⟨hrst, hm⟩, hes⟩ := List.forall_mem_cons.1 h
    obtain ⟨hedge, hxfers⟩ := edge_stays hrst hm
    simp [edges, hedge, hxfers, ih hes]

theorem edges_singleton (e : PinEngine) (p : PinsIn) (t : Timing) :
    edges [(p, t)] e = (edge e p t, edgeXfers e p t) :=
  Prod.ext rfl (joinXfers_noXfers _)

/-- Waiting edges and then one at which the engine goes on. -/
theorem edges_stay_then_move {e : PinEngine} {es : List (PinsIn × Timing)} {p : PinsIn} {t : Timing}
    (h : ∀ x ∈ es, x.1.rst = false ∧ moves e x.1 x.2 = false) (hrst : p.rst = false) (hm : moves e p t = true) :
    edges (es ++ [(p, t)]) e = (moved e p, movedXfers e p) := by
  obtain ⟨hedge, hxfers⟩ := edge_moves hrst hm
  rw [edges_append, edges_stay h, edges_singleton, hedge, hxfers, noXfers_joinXfers]

/-! ### Endless runs -/

section Endless

variable {es : Nat → PinsIn × Timing} {start e : PinEngine} {x : Xfers}

/-- The run comes to this engine with these transfers. -/
def Comes (es : Nat → PinsIn × Timing) (start e : PinEngine) (x : Xfers) : Prop :=
  ∃ n, edgesTo es n start = (e, x)

/-- A run in which the engine, if it stayed, would some time go on: it does go on. -/
theorem comes_to_move (hrst : ∀ n, (es n).1.rst = false) (h : Comes es start e x)
    (hlive : ∀ n, (∀ m, n ≤ m → edgesTo es m start = (e, x)) → ∃ m, n ≤ m ∧ moves e (es m).1 (es m).2 = true) :
    ∃ m, edgesTo es m start = (e, x) ∧ moves e (es m).1 (es m).2 = true ∧
      Comes es start (moved e (es m).1) (joinXfers x (movedXfers e (es m).1)) := by
  obtain ⟨n, hn⟩ := h
  have hmove : ∃ m, edgesTo es m start = (e, x) ∧ moves e (es m).1 (es m).2 = true := by
    by_contra hnone
    push Not at hnone
    have hstay : ∀ m, n ≤ m → edgesTo es m start = (e, x) := by
      intro m hm
      induction m, hm using Nat.le_induction with
      | base => exact hn
      | succ m _ ih =>
        obtain ⟨hedge, hxfers⟩ := edge_stays (hrst m) (Bool.eq_false_of_not_eq_true (hnone m ih))
        rw [edgesTo_succ, ih, hedge, hxfers, joinXfers_noXfers]
    obtain ⟨m, hm, hmoves⟩ := hlive n hstay
    exact hnone m (hstay m hm) hmoves
  obtain ⟨m, hm, hmoves⟩ := hmove
  obtain ⟨hedge, hxfers⟩ := edge_moves (hrst m) hmoves
  exact ⟨m, hm, hmoves, m + 1, by rw [edgesTo_succ, hm, hedge, hxfers]⟩

end Endless

/-! ### A dutiful host and an engine that makes progress -/

section Host

variable {es : Nat → PinsIn × Timing} {start : PinEngine} {ws : List CmdWord} {D : List Beat}
  (hhost : Dutiful es start ws D) (hengine : MakesProgress es) {r : Regs} {k : Nat} {ws₀ : List CmdWord}
  {D₀ : List Beat} {rsps : List RspWord}

include hhost hengine

/-- An idle engine takes the host's next word (R177). -/
theorem comes_to_take_word {w : CmdWord} {ws₁ : List CmdWord} (hws : ws = ws₀ ++ w :: ws₁)
    (h : Comes es start ⟨r, .idle, k⟩ ⟨ws₀, D₀, rsps⟩) : Comes es start ⟨r, loopBegin w, k⟩ ⟨ws₀ ++ [w], D₀, rsps⟩ := by
  have hlt : ws₀.length < ws.length := by simp [hws]
  obtain ⟨m, hm, hmoves, hnext⟩ := comes_to_move hhost.noReset h fun n hstay => by
    obtain ⟨a, ha⟩ := hhost.offersWords ws₀.length hlt
    obtain ⟨m, hm, htakes⟩ := hengine.takesCommand (max n a)
    have hvalid := ha m (by omega) (by rw [hstay m (by omega)])
    exact ⟨m, by omega, by simp [moves, hvalid, htakes]⟩
  have hvalid : (es m).1.cmdValid = true := (Bool.and_eq_true_iff.1 hmoves).1
  have hword := hhost.nextWord m (by rwa [hm]) hvalid
  obtain rfl : w = (es m).1.cmdWord := by simpa [hm, hws] using hword
  simpa [moved, movedXfers, joinXfers, noXfers] using hnext

/-- A collecting engine takes the host's next beat (R177, R180). -/
theorem comes_to_take_beat {i : Instr} {P : List Byte} {b : Beat} {D₁ : List Beat} (hD : D = D₀ ++ b :: D₁)
    (h : Comes es start ⟨r, .collecting i P, k⟩ ⟨ws₀, D₀, rsps⟩) :
    Comes es start ⟨r, loopBeat i P b, k + 1⟩ ⟨ws₀, D₀ ++ [b], rsps⟩ := by
  have hlt : D₀.length < D.length := by simp [hD]
  obtain ⟨m, hm, hmoves, hnext⟩ := comes_to_move hhost.noReset h fun n hstay => by
    obtain ⟨a, ha⟩ := hhost.offersBeats D₀.length hlt
    obtain ⟨m, hm, htakes⟩ := hengine.takesBeat (max n a)
    have hvalid := ha m (by omega) (by rw [hstay m (by omega)])
    exact ⟨m, by omega, by simp [moves, hvalid, htakes]⟩
  have hvalid : (es m).1.datValid = true := (Bool.and_eq_true_iff.1 hmoves).1
  have hbeat := hhost.nextBeat m (by rwa [hm]) hvalid
  obtain rfl : b = (es m).1.datBeat := by simpa [hm, hD] using hbeat
  simpa [moved, movedXfers, joinXfers, noXfers] using hnext

/-- A command that executes is answered, and the answer is taken (R131, R178). -/
theorem comes_to_answer {c : Command} (h : Comes es start ⟨r, .executing c, k⟩ ⟨ws₀, D₀, rsps⟩) :
    Comes es start ⟨(execCommand c r).1, .idle, k⟩
      ⟨ws₀, D₀, rsps ++ [encodeResponse (execCommand c r).2]⟩ := by
  obtain ⟨_, -, -, hoffer⟩ := comes_to_move hhost.noReset h fun n _ => hengine.done n
  rw [movedXfers, joinXfers_noXfers] at hoffer
  obtain ⟨_, -, -, hidle⟩ := comes_to_move hhost.noReset hoffer fun n _ => hhost.takesResponses n
  simpa [moved, movedXfers, joinXfers, noXfers] using hidle

/-- A collecting engine takes its whole payload and executes the command (R70). -/
theorem comes_to_take_payload {i : Instr} {P Q : List Byte} {D₁ : List Beat} {n : Nat} (htake : take D₁ = some (Q, n))
    (hD : D = D₀ ++ D₁) (h : Comes es start ⟨r, .collecting i P, k⟩ ⟨ws₀, D₀, rsps⟩) :
    Comes es start ⟨r, .executing (commandOf i (P ++ Q)), k + n⟩ ⟨ws₀, D₀ ++ D₁.take n, rsps⟩ := by
  induction D₁ generalizing D₀ P Q k n with
  | nil => cases htake
  | cons b D₁ ih =>
    have hbeat := comes_to_take_beat hhost hengine hD h
    cases hlast : beatLast b with
    | true =>
      rw [take_cons_last hlast] at htake
      cases htake
      simpa [loopBeat, hlast] using hbeat
    | false =>
      rw [take_cons_not_last hlast, Option.map_eq_some_iff] at htake
      obtain ⟨⟨Q', m⟩, htake', hx⟩ := htake
      cases hx
      simp only [loopBeat, hlast, if_neg Bool.false_ne_true] at hbeat
      simpa [Nat.add_assoc, Nat.add_comm 1] using ih htake' (by simpa using hD) hbeat

/-- An idle engine takes and answers the host's next transaction (R131). -/
theorem comes_to_transaction {w : CmdWord} {ws₁ : List CmdWord} {c : Command} {D₁ D₂ : List Beat}
    (hc : nextCommand w D₁ = some (c, D₂)) (hws : ws = ws₀ ++ w :: ws₁) (hD : D = D₀ ++ D₁)
    (h : Comes es start ⟨r, .idle, k⟩ ⟨ws₀, D₀, rsps⟩) :
    ∃ E, D₁ = E ++ D₂ ∧ Comes es start ⟨(execCommand c r).1, .idle, k + E.length⟩
      ⟨ws₀ ++ [w], D₀ ++ E, rsps ++ [encodeResponse (execCommand c r).2]⟩ := by
  have hword := comes_to_take_word hhost hengine hws h
  cases hneeds : needsBeats (decode w) with
  | false =>
    rw [nextCommand_without_beats hneeds] at hc
    cases hc
    rw [loopBegin, hneeds, if_neg Bool.false_ne_true] at hword
    refine ⟨[], rfl, ?_⟩
    rw [List.append_nil]
    exact comes_to_answer hhost hengine hword
  | true =>
    rw [nextCommand_with_beats hneeds, Option.map_eq_some_iff] at hc
    obtain ⟨⟨P, n⟩, htake, hx⟩ := hc
    cases hx
    obtain ⟨-, -, hn⟩ := take_eq_some htake
    rw [loopBegin, if_pos hneeds] at hword
    have hexec := comes_to_take_payload hhost hengine htake hD hword
    refine ⟨D₁.take n, (List.take_append_drop n D₁).symm, ?_⟩
    rw [List.length_take_of_le hn]
    exact comes_to_answer hhost hengine hexec

/-- An idle engine takes and answers all the host's transactions (R182). -/
theorem comes_to_all_transactions {ws₁ : List CmdWord} {D₁ : List Beat} {cs : List Command}
    (hread : assemble ws₁ D₁ = some (cs, [])) (hws : ws = ws₀ ++ ws₁) (hD : D = D₀ ++ D₁)
    (h : Comes es start ⟨r, .idle, k⟩ ⟨ws₀, D₀, rsps⟩) :
    Comes es start ⟨(runCommands cs r).1, .idle, k + D₁.length⟩
      ⟨ws, D, rsps ++ (runCommands cs r).2.map encodeResponse⟩ := by
  induction ws₁ generalizing ws₀ D₀ D₁ cs r k rsps with
  | nil =>
    cases hread
    simpa [hws, hD, runCommands] using h
  | cons w ws₁ ih =>
    obtain ⟨c, D₂, cs', hc, hread', rfl⟩ := assemble_cons_eq_some hread
    obtain ⟨E, rfl, hnext⟩ := comes_to_transaction hhost hengine hc hws hD h
    simpa [runCommands, Nat.add_assoc] using ih hread' (by simpa using hws) (by simpa using hD) hnext

end Host

/-- Settles O53: what can stop the engine at any one point does not last, so it goes on from each point to the next. -/
theorem everyTransactionIsAnswered : Obligations.EveryTransactionIsAnswered := by
  refine ⟨?_, fun ws D cs es r k hread hhost hengine => ?_⟩
  · rintro ⟨r, loop, k⟩ c busy wait p q t u rfl hbusy hp hdone hwait hq hready
    have hexec := edges_stay_then_move (e := ⟨r, .executing c, k⟩) hbusy hp hdone
    have hoffer := edges_stay_then_move (e := moved ⟨r, .executing c, k⟩ p) (t := u) hwait hq hready
    rw [← List.singleton_append, ← List.append_assoc, edges_append, hexec, hoffer]
    rfl
  · have hstart : Comes es ⟨r, .idle, k⟩ ⟨r, .idle, k⟩ ⟨[], [], []⟩ := ⟨0, rfl⟩
    exact comes_to_all_transactions hhost hengine hread rfl rfl hstart

end Sys2Proof.Proofs
